-- ==== Sys2Proof/Word.lean ====
section
/-! DEFINITION. The word types of the Spritz engine (spec/00_scope.md R5, R6): every value is
unsigned, bit 0 is the least significant bit, and `+` on these types wraps (R7). -/

namespace Sys2Proof

/-- An entry or an index of `S`, a cipher register, an operand byte (R5: byte width 8). -/
abbrev Byte := BitVec 8

/-- The unit of absorption (R5: nibble width 4). -/
abbrev Nibble := BitVec 4

/-- The length registers `LA`, `LB` and the `arg` field of a command word (R5: `LENW` = 24). -/
abbrev Word24 := BitVec 24

/-- A command word, and the results of the host's 32-bit arithmetic (R5: `CMDW` = 32). -/
abbrev Word32 := BitVec 32

/-- A response word (R5: `RSPW` = 16). -/
abbrev Word16 := BitVec 16

end Sys2Proof
end

