-- ==== Sys2Proof/Config.lean ====
section
/-! DEFINITION. What an implementation fixes and the spec leaves open: constants with no body, so that
no proof can see their values. The spec's own parameters (spec/00_scope.md R5) are numerals where
the rules use them. -/

namespace Sys2Proof.Config

/-- The byte left in `T1` by the n-th swap or compare-exchange since the run began: any value
(spec/10_state.md R29, spec/93_implementation_defined.md U1; log 3). -/
opaque scratch1 : Nat → Byte

/-- The byte left in `T2` by the n-th swap or compare-exchange since the run began: any value
(R29, U1; log 3). -/
opaque scratch2 : Nat → Byte

/-- `LATENCY(op, state)`: one less than the clock cycles from the acceptance of a command word to its
response; finite, otherwise open (spec/70_reset_and_hazards.md R250, U6; log 8). Only the port
layer reads it. -/
opaque latency {σ : Type} : Word32 → σ → Nat

end Sys2Proof.Config
end

