-- ==== Sys2Proof/Syntax.lean ====
section
/-! DEFINITION. The commands of SPRITZ-CMD version 1 (spec/30_encoding.md R72 to R75), their mnemonics
and formats, and the source lines of the assembler (R78). Operands have exactly the width of their
field, so an operand that does not fit cannot be written in an `Instr`; the assembler's lines hold
plain numbers and are checked in WellFormed.lean. -/

namespace Sys2Proof

/-- The twenty commands of R75, one constructor per row of the opcode map. -/
inductive Instr where
  | init
  | swap (x y : Byte)
  | update
  | whip
  | crush
  | shuffle
  | absn (n : Nibble)
  | absb (b : Byte)
  | abss
  | output
  | drip
  | shufp
  | crypt (d : Byte)
  | zeroize
  | setla (len : Word24)
  | setlb (len : Word24)
  | lchk
  | cmpz
  | cmpa (x y : Byte)
  | cmpr
  deriving DecidableEq, Repr

/-- The mnemonics of R75. -/
inductive Mnemonic where
  | INIT | SWAP | UPDATE | WHIP | CRUSH | SHUFFLE
  | ABSN | ABSB | ABSS | OUTPUT | DRIP
  | SHUFP | CRYPT
  | ZEROIZE | SETLA | SETLB | LCHK | CMPZ | CMPA | CMPR
  deriving DecidableEq, Repr

/-- The operand formats of R74. -/
inductive Format where
  /-- no operand -/
  | N
  /-- one nibble -/
  | Q
  /-- one byte -/
  | B
  /-- two bytes -/
  | P
  /-- one 24-bit length -/
  | L
  deriving DecidableEq, Repr

/-- An operand as the assembler's source writes it (R78): an unsigned number of any size, or a quoted
character. -/
inductive Operand where
  | number (n : Nat)
  | quoted (c : Char)
  deriving DecidableEq, Repr

/-- One source line of the assembler (R78): a mnemonic and its operands. -/
structure AsmLine where
  mnemonic : Mnemonic
  operands : List Operand
  deriving DecidableEq, Repr

end Sys2Proof
end

