-- ==== Sys2Proof/Decode.lean ====
section
/-! DEFINITION. The opcode map (spec/30_encoding.md R72 to R75), the decoder, total on all 2^32 words
and rejecting by name (R76), and the encoder. -/

namespace Sys2Proof

/-! ### The opcode map of R75 -/

/-- The mnemonic of a command. -/
def Instr.mnemonic : Instr → Mnemonic
  | .init => .INIT
  | .swap _ _ => .SWAP
  | .update => .UPDATE
  | .whip => .WHIP
  | .crush => .CRUSH
  | .shuffle => .SHUFFLE
  | .absn _ => .ABSN
  | .absb _ => .ABSB
  | .abss => .ABSS
  | .output => .OUTPUT
  | .drip => .DRIP
  | .shufp => .SHUFP
  | .crypt _ => .CRYPT
  | .zeroize => .ZEROIZE
  | .setla _ => .SETLA
  | .setlb _ => .SETLB
  | .lchk => .LCHK
  | .cmpz => .CMPZ
  | .cmpa _ _ => .CMPA
  | .cmpr => .CMPR

/-- The column `op` of R75. -/
def Mnemonic.op : Mnemonic → Byte
  | .INIT => 0x01
  | .SWAP => 0x02
  | .UPDATE => 0x03
  | .WHIP => 0x04
  | .CRUSH => 0x05
  | .SHUFFLE => 0x06
  | .ABSN => 0x10
  | .ABSB => 0x11
  | .ABSS => 0x12
  | .OUTPUT => 0x13
  | .DRIP => 0x14
  | .SHUFP => 0x20
  | .CRYPT => 0x21
  | .ZEROIZE => 0x30
  | .SETLA => 0x31
  | .SETLB => 0x32
  | .LCHK => 0x33
  | .CMPZ => 0x34
  | .CMPA => 0x35
  | .CMPR => 0x36

/-- The column `op` of R75 read from the number to the mnemonic; every other number is no command
(R76(a)). -/
def Mnemonic.ofOp (op : Byte) : Option Mnemonic :=
  match op.toNat with
  | 0x01 => some .INIT
  | 0x02 => some .SWAP
  | 0x03 => some .UPDATE
  | 0x04 => some .WHIP
  | 0x05 => some .CRUSH
  | 0x06 => some .SHUFFLE
  | 0x10 => some .ABSN
  | 0x11 => some .ABSB
  | 0x12 => some .ABSS
  | 0x13 => some .OUTPUT
  | 0x14 => some .DRIP
  | 0x20 => some .SHUFP
  | 0x21 => some .CRYPT
  | 0x30 => some .ZEROIZE
  | 0x31 => some .SETLA
  | 0x32 => some .SETLB
  | 0x33 => some .LCHK
  | 0x34 => some .CMPZ
  | 0x35 => some .CMPA
  | 0x36 => some .CMPR
  | _ => none

/-- The column "Format" of R75. -/
def Mnemonic.format : Mnemonic → Format
  | .INIT => .N
  | .SWAP => .P
  | .UPDATE => .N
  | .WHIP => .N
  | .CRUSH => .N
  | .SHUFFLE => .N
  | .ABSN => .Q
  | .ABSB => .B
  | .ABSS => .N
  | .OUTPUT => .N
  | .DRIP => .N
  | .SHUFP => .N
  | .CRYPT => .B
  | .ZEROIZE => .N
  | .SETLA => .L
  | .SETLB => .L
  | .LCHK => .N
  | .CMPZ => .N
  | .CMPA => .P
  | .CMPR => .N

/-- The column "needs VALID" of R75. -/
def Mnemonic.needsValid : Mnemonic → Bool
  | .INIT => false
  | .SWAP => true
  | .UPDATE => true
  | .WHIP => true
  | .CRUSH => true
  | .SHUFFLE => true
  | .ABSN => true
  | .ABSB => true
  | .ABSS => true
  | .OUTPUT => true
  | .DRIP => true
  | .SHUFP => true
  | .CRYPT => true
  | .ZEROIZE => false
  | .SETLA => false
  | .SETLB => false
  | .LCHK => false
  | .CMPZ => false
  | .CMPA => false
  | .CMPR => false

/-- The bits of `arg` a format reserves (R74). -/
def Format.reserved : Format → Word24
  | .N => 0xFFFFFF
  | .Q => 0xFFFFF0
  | .B => 0xFFFF00
  | .P => 0xFF0000
  | .L => 0x000000

/-- The column "match" of R75. -/
def Mnemonic.matchWord (m : Mnemonic) : Word32 := m.op ++ (0 : Word24)

/-- The column "mask" of R75: the opcode and the reserved bits. -/
def Mnemonic.mask (m : Mnemonic) : Word32 := (0xFF : Byte) ++ m.format.reserved

/-! ### The decoder -/

/-- Bits 31:24 of a command word (R72). -/
def opField (w : Word32) : Byte := w.extractLsb' 24 8

/-- Bits 23:0 of a command word (R72). -/
def argField (w : Word32) : Word24 := w.extractLsb' 0 24

/-- Bits 15:8 of `arg`, the first operand of format P (R74). -/
def argX (arg : Word24) : Byte := arg.extractLsb' 8 8

/-- Bits 7:0 of `arg`, the second operand of format P and the operand of format B (R74). -/
def argY (arg : Word24) : Byte := arg.extractLsb' 0 8

/-- Bits 3:0 of `arg`, the operand of format Q (R74). -/
def argN (arg : Word24) : Nibble := arg.extractLsb' 0 4

/-- The command of a mnemonic with its operands read from `arg` as its format lays them out (R74). -/
def Instr.ofFields (m : Mnemonic) (arg : Word24) : Instr :=
  match m with
  | .INIT => .init
  | .SWAP => .swap (argX arg) (argY arg)
  | .UPDATE => .update
  | .WHIP => .whip
  | .CRUSH => .crush
  | .SHUFFLE => .shuffle
  | .ABSN => .absn (argN arg)
  | .ABSB => .absb (argY arg)
  | .ABSS => .abss
  | .OUTPUT => .output
  | .DRIP => .drip
  | .SHUFP => .shufp
  | .CRYPT => .crypt (argY arg)
  | .ZEROIZE => .zeroize
  | .SETLA => .setla arg
  | .SETLB => .setlb arg
  | .LCHK => .lchk
  | .CMPZ => .cmpz
  | .CMPA => .cmpa (argX arg) (argY arg)
  | .CMPR => .cmpr

/-- Why a command word is illegal (R76). -/
inductive Illegal where
  /-- R76(a): `op` is not one of the twenty values. -/
  | unknownOpcode (op : Byte)
  /-- R76(b): a reserved bit of the command's format is 1. -/
  | reservedBitSet (m : Mnemonic)
  deriving DecidableEq, Repr

/-- What the decoder makes of a command word. -/
inductive Decoded where
  | command (i : Instr)
  | illegal (why : Illegal)
  deriving DecidableEq, Repr

/-- The decoder (R72, R74, R75, R76). -/
def decode (w : Word32) : Decoded :=
  match Mnemonic.ofOp (opField w) with
  | none => .illegal (.unknownOpcode (opField w))
  | some m =>
    if argField w &&& m.format.reserved = 0 then .command (Instr.ofFields m (argField w))
    else .illegal (.reservedBitSet m)

/-! ### The encoder -/

/-- The `arg` field of a command, its reserved bits zero (R74). -/
def Instr.arg : Instr → Word24
  | .init => 0
  | .swap x y => (0 : Byte) ++ x ++ y
  | .update => 0
  | .whip => 0
  | .crush => 0
  | .shuffle => 0
  | .absn n => (0 : BitVec 20) ++ n
  | .absb b => (0 : Word16) ++ b
  | .abss => 0
  | .output => 0
  | .drip => 0
  | .shufp => 0
  | .crypt d => (0 : Word16) ++ d
  | .zeroize => 0
  | .setla len => len
  | .setlb len => len
  | .lchk => 0
  | .cmpz => 0
  | .cmpa x y => (0 : Byte) ++ x ++ y
  | .cmpr => 0

/-- The word of a command: `word = (op << 24) | arg` (R78). -/
def encode (i : Instr) : Word32 := i.mnemonic.op ++ i.arg

/-! ### The host's view of the decoder -/

/-- The instruction the decoder reads from a table word of `nbits` bits: the word's low `nbits` bits
as a command word, which is defined only as a 32-bit value and has no byte order
(spec/91_not_in_source.md N23; log 7). A number that needs more than 32 bits is no command word. -/
def decodeTableWord (nbits w : Nat) : Option Instr :=
  if w % 2 ^ nbits < 2 ^ 32 then
    match decode (BitVec.ofNat 32 (w % 2 ^ nbits)) with
    | .command i => some i
    | .illegal _ => none
  else none

end Sys2Proof
end

