-- ==== Sys2Proof/Machine/State.lean ====
section
/-! DEFINITION. The state of one engine instance (spec/10_state.md R20), with the host's stream and the
responses it has received beside it, and the state after reset (R35). -/

namespace Sys2Proof.Machine

/-- The permutation array `S` (R22): cells of the 256 entries in rising order, an entry that is not
listed being 0x00, its value after reset (R35; log 6). -/
abbrev Memory := List Host.Cell

/-- The statuses of spec/60_exceptions.md R200. -/
inductive Status where
  /-- 0x00: the command executed. -/
  | ok
  /-- 0x01: raised by `LCHK` when `LA != LB` (R201). -/
  | lengthMismatch
  /-- 0x02: raised for every illegal command word (R202). -/
  | illegalCommand
  /-- 0x03: raised by a command that needs a context while `VALID == 0` (R204). -/
  | notInitialised
  deriving DecidableEq, Repr

/-- What the host can do to the engine (spec/30_encoding.md R71, spec/70_reset_and_hazards.md R233):
present a command word, or reset it between two commands. -/
inductive HostMove where
  | command (w : Word32)
  | reset
  deriving DecidableEq, Repr

/-- The engine's state (R20), then the model's own three fields (log 1, log 5). -/
structure State where
  /-- The permutation array (R22). -/
  S : Memory
  /-- The stepping index of the walk (R23). -/
  I : Byte
  /-- A mixing register (R23). -/
  J : Byte
  /-- A mixing register (R23). -/
  K : Byte
  /-- The last output byte (R24). -/
  Z : Byte
  /-- The absorbed-nibble counter (R25). -/
  A : Byte
  /-- The step of the walk (R26). -/
  W : Byte
  /-- Swap scratch (R29). -/
  T1 : Byte
  /-- Swap scratch (R29). -/
  T2 : Byte
  /-- Whether a context exists (R27). -/
  VALID : Bool
  /-- Length of the first buffer (R30). -/
  LA : Word24
  /-- Length of the second buffer (R30). -/
  LB : Word24
  /-- The compare accumulator (R31). -/
  CACC : Byte
  /-- The model's own: how many free values the scratch registers have been given (log 3, log 5). -/
  scratchDraws : Nat
  /-- The model's own: what the host still does, first move first (log 1). -/
  host : List HostMove
  /-- The model's own: the response words the host has received, oldest first (log 1). -/
  responses : List Word16
  deriving DecidableEq, Repr

/-- Reasons for the machine to stop. There is none: every command word is answered, with a status
where it is not executed, and the engine goes on (spec/60_exceptions.md R200, R203, R206; log 15).
Nothing raises a fault, so this is neither safe nor unsafe. -/
inductive Fault : Type where
  deriving DecidableEq, Repr

/-- Reasons for the model to give no meaning. -/
inductive Refusal where
  /-- Raised by an arm of `exec` whose instruction has no meaning yet, and by nothing else; safe: the
  model stops where the hardware goes on. No arm raises it. -/
  | notModelled (mnemonic : String)
  deriving DecidableEq, Repr

/-- The state after reset (R35): every piece of the engine's state zero, `VALID` 0; nothing in the
host's stream, no response received, no free value used (log 1, log 5). -/
def State.reset : State where
  S := []
  I := 0
  J := 0
  K := 0
  Z := 0
  A := 0
  W := 0
  T1 := 0
  T2 := 0
  VALID := false
  LA := 0
  LB := 0
  CACC := 0
  scratchDraws := 0
  host := []
  responses := []

end Sys2Proof.Machine
end

