-- ==== Sys2Proof/Machine/Flags.lean ====
section
/-! DEFINITION. Statuses, the response word, and the order in which the status of a command is decided.
The hardware has no condition codes: its one flag is `VALID` (spec/10_state.md R27). -/

namespace Sys2Proof.Machine

/-- The code of a status (spec/60_exceptions.md R200). -/
def Status.code : Status → Byte
  | .ok => 0x00
  | .lengthMismatch => 0x01
  | .illegalCommand => 0x02
  | .notInitialised => 0x03

/-- The response word: the status in bits 15:8, the data byte in bits 7:0 (spec/30_encoding.md R73). -/
def responseWord (st : Status) (data : Byte) : Word16 := st.code ++ data

/-- Bits 15:8 of a response word (R73). -/
def statusField (r : Word16) : Byte := r.extractLsb' 8 8

/-- Bits 7:0 of a response word (R73). -/
def dataField (r : Word16) : Byte := r.extractLsb' 0 8

/-- The order in which the response of a command word is decided (R77, spec/60_exceptions.md R205),
told apart from the commands' meanings, which each decide their own. -/
def statusOf (w : Word32) (s : State) : Status :=
  match decode w with
  | .illegal _ => .illegalCommand
  | .command i =>
    if i.mnemonic.needsValid && !s.VALID then .notInitialised
    else if i = .lchk ∧ s.LA ≠ s.LB then .lengthMismatch
    else .ok

end Sys2Proof.Machine
end

