-- ==== Sys2Proof/Machine/Ops.lean ====
section
/-! DEFINITION. The named operations over the permutation array, the registers, the responses and the
reset: everything a command does to the state goes through these. -/

namespace Sys2Proof.Machine

/-! ### The permutation array (spec/20_memory.md R50, R53; log 6) -/

/-- What an entry that is not listed reads as: its value after reset (spec/10_state.md R35). -/
def unlistedByte : Byte := 0x00

/-- The byte at an address of the list. -/
def Memory.byteAt : Memory → Nat → Byte
  | [], _ => unlistedByte
  | (b, v) :: m, a => if b = a then v else Memory.byteAt m a

/-- The list without the entry of an address. -/
def Memory.unlist : Memory → Nat → Memory
  | [], _ => []
  | (b, v) :: m, a => if b = a then Memory.unlist m a else (b, v) :: Memory.unlist m a

/-- The list with an address's entry set, in its place in the rising order. -/
def Memory.enlist : Memory → Nat → Byte → Memory
  | [], a, v => [(a, v)]
  | (b, u) :: m, a, v =>
    if b < a then (b, u) :: Memory.enlist m a v
    else if b = a then (a, v) :: m
    else (a, v) :: (b, u) :: m

/-- `S[x]` (spec/00_scope.md R8). -/
def Memory.read (m : Memory) (x : Byte) : Byte := Memory.byteAt m x.toNat

/-- `S[x] <- v` (R8): a byte equal to what an unlisted entry reads as is not listed. -/
def Memory.write (m : Memory) (x v : Byte) : Memory :=
  if v = unlistedByte then Memory.unlist m x.toNat else Memory.enlist m x.toNat v

/-- `for v = 0 to 255: S[v] <- f v`: all 256 entries written, none of the old array left. -/
def Memory.fill (f : Byte → Byte) : Memory :=
  ((List.range 256).map fun v => (v, f (BitVec.ofNat 8 v))).filter fun c => c.2 != unlistedByte

/-- The canonical form of the list: addresses strictly rising, each below 256, and no entry equal to
what an unlisted one reads as. -/
def Memory.wf (m : Memory) : Bool :=
  decide (m.Pairwise fun c d => c.1 < d.1) && m.all fun c => decide (c.1 < 256) && c.2 != unlistedByte

/-- Two entries exchanged, both read before either is written (spec/40_permutation_core.md R101). -/
def Memory.exchange (m : Memory) (x y : Byte) : Memory :=
  let t1 := m.read x
  let t2 := m.read y
  (m.write x t2).write y t1

/-! ### Register updates, one for each piece of state written apart -/

/-- Writes the permutation array. -/
def State.setS (s : State) (m : Memory) : State := { s with S := m }

/-- Writes the three walk registers, which are only written together (spec/10_state.md R23). -/
def State.setWalk (s : State) (i j k : Byte) : State := { s with I := i, J := j, K := k }

/-- Writes `Z`. -/
def State.setZ (s : State) (v : Byte) : State := { s with Z := v }

/-- Writes `A`. -/
def State.setA (s : State) (v : Byte) : State := { s with A := v }

/-- Writes `W`. -/
def State.setW (s : State) (v : Byte) : State := { s with W := v }

/-- Writes the two scratch registers with given bytes. -/
def State.setScratch (s : State) (t1 t2 : Byte) : State := { s with T1 := t1, T2 := t2 }

/-- The scratch registers after a swap: any two bytes (R29, U1; log 3). -/
def State.drawScratch (s : State) : State :=
  { s with
    T1 := Config.scratch1 s.scratchDraws
    T2 := Config.scratch2 s.scratchDraws
    scratchDraws := s.scratchDraws + 1 }

/-- Writes the flag `VALID`. -/
def State.setVALID (s : State) (v : Bool) : State := { s with VALID := v }

/-- Writes `LA`. -/
def State.setLA (s : State) (len : Word24) : State := { s with LA := len }

/-- Writes `LB`. -/
def State.setLB (s : State) (len : Word24) : State := { s with LB := len }

/-- Writes `CACC`. -/
def State.setCACC (s : State) (v : Byte) : State := { s with CACC := v }

/-- Replaces what the host still does. -/
def State.setHost (s : State) (h : List HostMove) : State := { s with host := h }

/-- The host receives one more response word. -/
def State.receive (s : State) (r : Word16) : State := { s with responses := s.responses ++ [r] }

/-! ### Responding, and the refused command -/

/-- `respond(status, data)`: ends the command and emits its one response word (spec/00_scope.md R8,
spec/30_encoding.md R73). -/
def State.respond (s : State) (st : Status) (data : Byte) : State := s.receive (responseWord st data)

/-- `raise <Status>`, the hardware's one way of taking an exception: the response carries the status and
data 0x00, and nothing else of the state changes (spec/60_exceptions.md R203). There is no handler,
so there is no return operation beside it (R206). -/
def State.raise (s : State) (st : Status) : State := s.respond st 0x00

/-- A command that needs a context: `NOT_INITIALISED` while `VALID == 0`, else its body
(spec/10_state.md R27, spec/60_exceptions.md R204). -/
def whenLive (s : State) (body : State → State) : Host.Outcome State Fault Refusal :=
  .next (if s.VALID then body s else s.raise .notInitialised)

/-! ### Reset -/

/-- Every piece of the engine's state zero and `VALID` 0 (spec/44_utility.md R180, spec/10_state.md
R35). The model's own fields stay (log 4). -/
def State.clear (s : State) : State :=
  let s := s.setS (Memory.fill fun _ => 0x00)
  let s := s.setWalk 0x00 0x00 0x00
  let s := (s.setZ 0x00).setA 0x00
  let s := s.setW 0x00
  let s := s.setScratch 0x00 0x00
  let s := (s.setLA 0x000000).setLB 0x000000
  let s := s.setCACC 0x00
  s.setVALID false

/-- `rst` (spec/70_reset_and_hazards.md R230, R233): the engine's state takes its values after reset.
What the host has received and what it still does are not the engine's (log 4). -/
def resetMove (s : State) : State :=
  { State.reset with
    scratchDraws := s.scratchDraws
    host := s.host
    responses := s.responses }

end Sys2Proof.Machine
end

