-- ==== Sys2Proof/Machine/Operands.lean ====
section
/-! DEFINITION. The addressing forms of spec/20_memory.md R58 and the operand forms of
spec/30_encoding.md R74. Every index is a byte and every sum wraps modulo 256 (spec/00_scope.md R7),
so no index is out of range (R52); no form changes a register. -/

namespace Sys2Proof.Machine

/-- The index `128 + n` of absorb_nibble, 128..143 (R58 immediate offset). -/
def nibbleTarget (n : Nibble) : Byte := 0x80 + n.setWidth 8

/-- `b mod 16`, bits 3:0 of a byte (spec/00_scope.md R7). -/
def lowNibble (b : Byte) : Nibble := b.extractLsb' 0 4

/-- `b div 16`, bits 7:4 of a byte (R7). -/
def highNibble (b : Byte) : Nibble := b.extractLsb' 4 4

/-- The index `255 - v` of the upper member of a crush pair (R58 loop index). -/
def mirrorIndex (v : Byte) : Byte := 0xFF - v

/-- `S[S[i] + j]`, update's read indexed through `S` (R58). -/
def Memory.readIndexed (m : Memory) (i j : Byte) : Byte := m.read (m.read i + j)

/-- `S[S[S[z + k] + i] + j]`, output's read doubly indexed through `S` (R58). -/
def Memory.readOutput (m : Memory) (i j k z : Byte) : Byte := m.read (m.read (m.read (z + k) + i) + j)

end Sys2Proof.Machine
end

