-- ==== Sys2Proof/Machine/PermutationCore.lean ====
section
/-! DEFINITION. The permutation core (spec/40_permutation_core.md): the bodies swap, update, whip, crush
and shuffle, and the commands INIT, SWAP, UPDATE, WHIP, CRUSH, SHUFFLE that run them. -/

namespace Sys2Proof.Machine

/-! ### Bodies -/

/-- The body `swap(x, y)` (R101); it uses the scratch registers (R29). -/
def swap (x y : Byte) (s : State) : State := (s.setS (s.S.exchange x y)).drawScratch

/-- The body `update()` (R102): four statements in this order, each using the values of the earlier
ones. -/
def update (s : State) : State :=
  let i := s.I + s.W
  let j := s.S.readIndexed i s.J + s.K
  let k := s.S.read j + s.K + i
  swap i j (s.setWalk i j k)

/-- The body `whip()` (R103): 512 updates, all with the old `W`, then `W <- W + 2`. -/
def whip (s : State) : State :=
  let s := Nat.iterate update 512 s
  s.setW (s.W + 2)

/-- One step of crush (R104): the smaller of `S[v]`, `S[255 - v]` goes to the lower index. The scratch
registers may be used whether or not the entries move (log 3). -/
def compareExchange (v : Byte) (s : State) : State :=
  if s.S.read v > s.S.read (mirrorIndex v) then swap v (mirrorIndex v) s else s.drawScratch

/-- The body `crush()` (R104): `for v = 0 to 127`; `v` is local and no register. -/
def crush (s : State) : State :=
  (List.range 128).foldl (fun s v => compareExchange (BitVec.ofNat 8 v) s) s

/-- The body `shuffle()` (R105). -/
def shuffle (s : State) : State :=
  (whip (crush (whip (crush (whip s))))).setA 0x00

/-- "`shuffle()` if any nibbles are pending (`a>0`)" (spec/41_absorb_squeeze.md R124,
spec/42_protocol.md R140). -/
def shuffleIfPending (s : State) : State := if s.A > 0x00 then shuffle s else s

/-! ### Commands -/

/-- `INIT` (R100): legal in every state; `T1`, `T2`, `LA`, `LB`, `CACC` are not touched. -/
def execInit (s : State) : Host.Outcome State Fault Refusal :=
  let s := s.setS (Memory.fill fun v => v)
  let s := s.setWalk 0x00 0x00 0x00
  let s := (s.setZ 0x00).setA 0x00
  let s := s.setW 0x01
  let s := s.setVALID true
  .next (s.respond .ok 0x00)

/-- `SWAP x, y` (R101). -/
def execSwap (x y : Byte) (s : State) : Host.Outcome State Fault Refusal :=
  whenLive s fun s => (swap x y s).respond .ok 0x00

/-- `UPDATE` (R102). -/
def execUpdate (s : State) : Host.Outcome State Fault Refusal :=
  whenLive s fun s => (update s).respond .ok 0x00

/-- `WHIP` (R103). -/
def execWhip (s : State) : Host.Outcome State Fault Refusal :=
  whenLive s fun s => (whip s).respond .ok 0x00

/-- `CRUSH` (R104). -/
def execCrush (s : State) : Host.Outcome State Fault Refusal :=
  whenLive s fun s => (crush s).respond .ok 0x00

/-- `SHUFFLE` (R105): unconditional. -/
def execShuffle (s : State) : Host.Outcome State Fault Refusal :=
  whenLive s fun s => (shuffle s).respond .ok 0x00

end Sys2Proof.Machine
end

