-- ==== Sys2Proof/Machine/AbsorbSqueeze.lean ====
section
/-! DEFINITION. The absorb/squeeze layer (spec/41_absorb_squeeze.md): the bodies absorb_nibble,
absorb_byte, absorb_stop, output and drip, and the commands ABSN, ABSB, ABSS, OUTPUT, DRIP. A body
that returns a byte leaves it in `Z`, which is what it returns. -/

namespace Sys2Proof.Machine

/-! ### Bodies -/

/-- The first line of absorb_nibble and absorb_stop: shuffle when the counter is saturated (R120,
R122, R126). -/
def shuffleIfSaturated (s : State) : State := if s.A = 0x80 then shuffle s else s

/-- The body `absorb_nibble(n)` (R120): the swap uses `A` before the increment. -/
def absorbNibble (n : Nibble) (s : State) : State :=
  let s := shuffleIfSaturated s
  let s := swap s.A (nibbleTarget n) s
  s.setA (s.A + 1)

/-- The body `absorb_byte(b)` (R121): low nibble first. -/
def absorbByte (b : Byte) (s : State) : State := absorbNibble (highNibble b) (absorbNibble (lowNibble b) s)

/-- The body `absorb_stop()` (R122): no swap. -/
def absorbStop (s : State) : State :=
  let s := shuffleIfSaturated s
  s.setA (s.A + 1)

/-- The body `output()` (R123): the innermost index uses the old `Z`; the new `Z` is returned. -/
def output (s : State) : State := s.setZ (s.S.readOutput s.I s.J s.K s.Z)

/-- The body `drip()` (R124): the new `Z` is returned. -/
def drip (s : State) : State := output (update (shuffleIfPending s))

/-! ### Commands -/

/-- `ABSN n` (R120). -/
def execAbsn (n : Nibble) (s : State) : Host.Outcome State Fault Refusal :=
  whenLive s fun s => (absorbNibble n s).respond .ok 0x00

/-- `ABSB b` (R121). -/
def execAbsb (b : Byte) (s : State) : Host.Outcome State Fault Refusal :=
  whenLive s fun s => (absorbByte b s).respond .ok 0x00

/-- `ABSS` (R122). -/
def execAbss (s : State) : Host.Outcome State Fault Refusal :=
  whenLive s fun s => (absorbStop s).respond .ok 0x00

/-- `OUTPUT` (R123): it tests no counter and never shuffles. -/
def execOutput (s : State) : Host.Outcome State Fault Refusal :=
  whenLive s fun s => (output s).respond .ok (output s).Z

/-- `DRIP` (R124). -/
def execDrip (s : State) : Host.Outcome State Fault Refusal :=
  whenLive s fun s => (drip s).respond .ok (drip s).Z

end Sys2Proof.Machine
end

