-- ==== Sys2Proof/Machine/Protocol.lean ====
section
/-! DEFINITION. The two commands of the protocol layer, SHUFP and CRYPT (spec/42_protocol.md section 1).
Its sequences are the host's: Machine/Sequences.lean. -/

namespace Sys2Proof.Machine

/-- `SHUFP` (R140). -/
def execShufp (s : State) : Host.Outcome State Fault Refusal :=
  whenLive s fun s => (shuffleIfPending s).respond .ok 0x00

/-- `CRYPT d` (R141): the state is that of a drip, `d` is not absorbed. -/
def execCrypt (d : Byte) (s : State) : Host.Outcome State Fault Refusal :=
  whenLive s fun s => (drip s).respond .ok (d ^^^ (drip s).Z)

end Sys2Proof.Machine
end

