-- ==== Sys2Proof/Machine/Utility.lean ====
section
/-! DEFINITION. The utility commands (spec/44_utility.md): ZEROIZE, the length check and the compare
unit. None tests `VALID`. -/

namespace Sys2Proof.Machine

/-- `ZEROIZE` (R180). -/
def execZeroize (s : State) : Host.Outcome State Fault Refusal :=
  .next (s.clear.respond .ok 0x00)

/-- `SETLA len` (R181). -/
def execSetla (len : Word24) (s : State) : Host.Outcome State Fault Refusal :=
  .next ((s.setLA len).respond .ok 0x00)

/-- `SETLB len` (R182). -/
def execSetlb (len : Word24) (s : State) : Host.Outcome State Fault Refusal :=
  .next ((s.setLB len).respond .ok 0x00)

/-- `LCHK` (R183): no state change in either outcome. -/
def execLchk (s : State) : Host.Outcome State Fault Refusal :=
  .next (if s.LA ≠ s.LB then s.raise .lengthMismatch else s.respond .ok 0x00)

/-- `CMPZ` (R184). -/
def execCmpz (s : State) : Host.Outcome State Fault Refusal :=
  .next ((s.setCACC 0x00).respond .ok 0x00)

/-- `CMPA x, y` (R185). -/
def execCmpa (x y : Byte) (s : State) : Host.Outcome State Fault Refusal :=
  .next ((s.setCACC (s.CACC ||| (x ^^^ y))).respond .ok 0x00)

/-- The fold of the compare accumulator to its least-significant bit, by shifts of 4, 2 and 1 (R186). -/
def foldAccumulator (c : Byte) : Byte :=
  let r := c
  let r := r ||| (r >>> 4)
  let r := r ||| (r >>> 2)
  let r := r ||| (r >>> 1)
  r &&& 0x01

/-- `CMPR` (R186): `CACC` is not changed. -/
def execCmpr (s : State) : Host.Outcome State Fault Refusal :=
  .next (s.respond .ok (foldAccumulator s.CACC))

end Sys2Proof.Machine
end

