-- ==== Sys2Proof/Machine/Dispatch.lean ====
section
/-! DEFINITION. One arm per command (spec/30_encoding.md R75). -/

namespace Sys2Proof.Machine

-- What a command does to the state, once decoded.
def exec (i : Instr) (s : State) : Host.Outcome State Fault Refusal :=
  match i with
  -- permutation core (40_permutation_core.md)
  | .init => Sys2Proof.Machine.execInit s
  | .swap x y => Sys2Proof.Machine.execSwap x y s
  | .update => Sys2Proof.Machine.execUpdate s
  | .whip => Sys2Proof.Machine.execWhip s
  | .crush => Sys2Proof.Machine.execCrush s
  | .shuffle => Sys2Proof.Machine.execShuffle s
  -- absorb/squeeze layer (41_absorb_squeeze.md)
  | .absn n => Sys2Proof.Machine.execAbsn n s
  | .absb b => Sys2Proof.Machine.execAbsb b s
  | .abss => Sys2Proof.Machine.execAbss s
  | .output => Sys2Proof.Machine.execOutput s
  | .drip => Sys2Proof.Machine.execDrip s
  -- protocol layer (42_protocol.md)
  | .shufp => Sys2Proof.Machine.execShufp s
  | .crypt d => Sys2Proof.Machine.execCrypt d s
  -- utility (44_utility.md)
  | .zeroize => Sys2Proof.Machine.execZeroize s
  | .setla len => Sys2Proof.Machine.execSetla len s
  | .setlb len => Sys2Proof.Machine.execSetlb len s
  | .lchk => Sys2Proof.Machine.execLchk s
  | .cmpz => Sys2Proof.Machine.execCmpz s
  | .cmpa x y => Sys2Proof.Machine.execCmpa x y s
  | .cmpr => Sys2Proof.Machine.execCmpr s

end Sys2Proof.Machine
end

