-- ==== Sys2Proof/Machine/Command.lean ====
section
/-! DEFINITION. The engine accepts one command word (spec/30_encoding.md R71, R76, R77). -/

namespace Sys2Proof.Machine

/-- The word as the host presented it is decoded and executed; an illegal word is answered with
`ILLEGAL_COMMAND` and changes no state (R76, spec/60_exceptions.md R202). -/
def acceptCommand (w : Word32) (s : State) : Host.Outcome State Fault Refusal :=
  match decode w with
  | .command i => exec i s
  | .illegal _ => .next (s.raise .illegalCommand)

end Sys2Proof.Machine
end

