-- ==== Sys2Proof/Machine/Step.lean ====
section
/-! DEFINITION. One step of the machine: the host's next move (spec/30_encoding.md R71,
spec/70_reset_and_hazards.md R233, R247). R71 says that the port's handshake collapses for the model
to one function from a state and a word to a state and a response; Machine/Port.lean has the
handshake itself. -/

namespace Sys2Proof.Machine

/-- One move of the host: nothing to do, the engine waits (R230; log 1); a reset; or a command word,
executed as one atomic transition with its one response (R71, spec/20_memory.md R53). -/
def step (s : State) : Host.Outcome State Fault Refusal :=
  match s.host with
  | [] => .next s
  | .reset :: rest => .next (resetMove (s.setHost rest))
  | .command w :: rest => acceptCommand w (s.setHost rest)

/-- `s` with a command word as the host's next move: the engine fetches nothing, the host's stream is
the program (spec/10_state.md R28, spec/20_memory.md R57; log 7). -/
def State.withFetchWord (s : State) (nbits w : Nat) : State :=
  s.setHost (.command (BitVec.ofNat 32 (w % 2 ^ nbits)) :: s.host)

end Sys2Proof.Machine
end

