-- ==== Sys2Proof/WellFormed.lean ====
section
/-! DEFINITION. Which source lines the assembler accepts (spec/30_encoding.md R78): the right number of
operands for the mnemonic's format (R74), and each one fitting its field; it refuses, it never
truncates. An `Instr` needs no check: its operands have exactly the width of their fields. -/

namespace Sys2Proof

/-- A number that fits a field of `width` bits; a quoted character stands for no nibble or length. -/
def Operand.fitsNumber (width : Nat) : Operand → Bool
  | .number n => decide (n < 2 ^ width)
  | .quoted _ => false

/-- A byte operand: a number up to 255 or a quoted ASCII character (R78). -/
def Operand.fitsByte : Operand → Bool
  | .number n => decide (n < 2 ^ 8)
  | .quoted c => decide (c.toNat < 128)

/-- The operands a format takes (R74), each fitting its field (R78). -/
def Format.accepts : Format → List Operand → Bool
  | .N, [] => true
  | .Q, [n] => n.fitsNumber 4
  | .B, [b] => b.fitsByte
  | .P, [x, y] => x.fitsByte && y.fitsByte
  | .L, [len] => len.fitsNumber 24
  | _, _ => false

/-- A line the assembler accepts (R78). -/
def AsmLine.wellFormed (l : AsmLine) : Bool := l.mnemonic.format.accepts l.operands

end Sys2Proof
end

