-- ==== Sys2Proof/Machine/Assembler.lean ====
section
/-! DEFINITION. The assembler of spec/30_encoding.md R78: one line of source text to one command word.
What the rule leaves open about the text is in log 10. -/

namespace Sys2Proof.Machine

/-! ### Lines to words -/

/-- The number an operand stands for; a quoted character stands for its ASCII code (R78). -/
def operandValue : Operand → Nat
  | .number n => n
  | .quoted c => c.toNat

/-- `arg` as R74 lays the operands of a format out. -/
def argOfOperands : Format → List Operand → Word24
  | .Q, [n] => BitVec.ofNat 24 (operandValue n)
  | .B, [b] => BitVec.ofNat 24 (operandValue b)
  | .P, [x, y] => BitVec.ofNat 24 (operandValue x * 2 ^ 8 + operandValue y)
  | .L, [len] => BitVec.ofNat 24 (operandValue len)
  | _, _ => 0

/-- `word = (op << 24) | arg` (R78); a line with an operand that does not fit is refused, never
truncated. -/
def assemble (l : AsmLine) : Option Word32 :=
  if l.wellFormed then
    some ((l.mnemonic.op.setWidth 32 <<< 24) ||| (argOfOperands l.mnemonic.format l.operands).setWidth 32)
  else none

/-- The line that writes a command, its operands as numbers. -/
def lineOfInstr (i : Instr) : AsmLine where
  mnemonic := i.mnemonic
  operands :=
    match i with
    | .init => []
    | .swap x y => [.number x.toNat, .number y.toNat]
    | .update => []
    | .whip => []
    | .crush => []
    | .shuffle => []
    | .absn n => [.number n.toNat]
    | .absb b => [.number b.toNat]
    | .abss => []
    | .output => []
    | .drip => []
    | .shufp => []
    | .crypt d => [.number d.toNat]
    | .zeroize => []
    | .setla len => [.number len.toNat]
    | .setlb len => [.number len.toNat]
    | .lchk => []
    | .cmpz => []
    | .cmpa x y => [.number x.toNat, .number y.toNat]
    | .cmpr => []

/-! ### Text to lines -/

/-- A token of a source line. -/
inductive Token where
  /-- A run of characters that are neither blank, comma nor quoted. -/
  | word (cs : List Char)
  | comma
  | quoted (c : Char)
  deriving DecidableEq, Repr

/-- The token read so far, if any, before the tokens that follow. -/
def flushToken (acc : List Char) (rest : List Token) : List Token :=
  if acc = [] then rest else .word acc :: rest

/-- The tokens of a line; `;` outside quotes starts a comment (R78). DESIGN CHOICE: a quoted character, a
comma or a semicolon ends the word before it, so `ABSB'a'` needs no blank, while a number after the
mnemonic does: `ABSN5` is one word (log 10). -/
def tokenize : List Char → List Char → List Token
  | acc, [] => flushToken acc []
  | acc, '\'' :: c :: '\'' :: cs => flushToken acc (.quoted c :: tokenize [] cs)
  | acc, ';' :: _ => flushToken acc []
  | acc, ',' :: cs => flushToken acc (.comma :: tokenize [] cs)
  | acc, ' ' :: cs => flushToken acc (tokenize [] cs)
  | acc, '\t' :: cs => flushToken acc (tokenize [] cs)
  | acc, c :: cs => tokenize (acc ++ [c]) cs

/-- The value of a decimal digit. -/
def decimalDigit (c : Char) : Option Nat :=
  if '0'.toNat ≤ c.toNat ∧ c.toNat ≤ '9'.toNat then some (c.toNat - '0'.toNat) else none

/-- The value of a hexadecimal digit; both letter cases are read (log 10). -/
def hexDigit (c : Char) : Option Nat :=
  if 'A'.toNat ≤ c.toNat ∧ c.toNat ≤ 'F'.toNat then some (c.toNat - 'A'.toNat + 10)
  else if 'a'.toNat ≤ c.toNat ∧ c.toNat ≤ 'f'.toNat then some (c.toNat - 'a'.toNat + 10)
  else decimalDigit c

/-- The number of a run of digits, most significant first, after the digits already read. -/
def digitsValue (base : Nat) (digit : Char → Option Nat) : Nat → List Char → Option Nat
  | v, [] => some v
  | v, c :: cs =>
    match digit c with
    | none => none
    | some d => digitsValue base digit (v * base + d) cs

/-- An unsigned number, decimal or `0x` hexadecimal (R78), with at least one digit. -/
def numberOf : List Char → Option Nat
  | [] => none
  | ['0', 'x'] => none
  | '0' :: 'x' :: cs => digitsValue 16 hexDigit 0 cs
  | cs => digitsValue 10 decimalDigit 0 cs

/-- The mnemonics of R75 as text, in capitals. -/
def mnemonicOf : List Char → Option Mnemonic
  | ['I', 'N', 'I', 'T'] => some .INIT
  | ['S', 'W', 'A', 'P'] => some .SWAP
  | ['U', 'P', 'D', 'A', 'T', 'E'] => some .UPDATE
  | ['W', 'H', 'I', 'P'] => some .WHIP
  | ['C', 'R', 'U', 'S', 'H'] => some .CRUSH
  | ['S', 'H', 'U', 'F', 'F', 'L', 'E'] => some .SHUFFLE
  | ['A', 'B', 'S', 'N'] => some .ABSN
  | ['A', 'B', 'S', 'B'] => some .ABSB
  | ['A', 'B', 'S', 'S'] => some .ABSS
  | ['O', 'U', 'T', 'P', 'U', 'T'] => some .OUTPUT
  | ['D', 'R', 'I', 'P'] => some .DRIP
  | ['S', 'H', 'U', 'F', 'P'] => some .SHUFP
  | ['C', 'R', 'Y', 'P', 'T'] => some .CRYPT
  | ['Z', 'E', 'R', 'O', 'I', 'Z', 'E'] => some .ZEROIZE
  | ['S', 'E', 'T', 'L', 'A'] => some .SETLA
  | ['S', 'E', 'T', 'L', 'B'] => some .SETLB
  | ['L', 'C', 'H', 'K'] => some .LCHK
  | ['C', 'M', 'P', 'Z'] => some .CMPZ
  | ['C', 'M', 'P', 'A'] => some .CMPA
  | ['C', 'M', 'P', 'R'] => some .CMPR
  | _ => none

/-- One operand of a line. -/
def operandOf : Token → Option Operand
  | .word cs => (numberOf cs).map .number
  | .comma => none
  | .quoted c => some (.quoted c)

/-- The operands of a line, separated by commas (R78). -/
def operandsOf : List Token → Option (List Operand)
  | [] => some []
  | [t] => (operandOf t).map fun o => [o]
  | t :: .comma :: u :: ts =>
    match operandOf t, operandsOf (u :: ts) with
    | some o, some os => some (o :: os)
    | _, _ => none
  | _ :: _ => none

/-- What the assembler makes of a line of text. -/
inductive Assembled where
  /-- A blank or comment line: no command (log 10). -/
  | nothing
  | word (w : Word32)
  /-- Not a line of R78, or an operand that does not fit. -/
  | rejected
  deriving DecidableEq, Repr

/-- The line a list of tokens writes, if it is one. -/
def lineOf : List Token → Option AsmLine
  | .word m :: ts =>
    match mnemonicOf m, operandsOf ts with
    | some m, some os => some { mnemonic := m, operands := os }
    | _, _ => none
  | _ => none

/-- One line of source text assembled (R78). -/
def assembleText (cs : List Char) : Assembled :=
  match tokenize [] cs with
  | [] => .nothing
  | t :: ts =>
    match lineOf (t :: ts) with
    | none => .rejected
    | some l =>
      match assemble l with
      | none => .rejected
      | some w => .word w

end Sys2Proof.Machine
end

