-- ==== Sys2Proof/Machine/Port.lean ====
section
/-! DEFINITION. The command port edge by edge (spec/30_encoding.md R70, R71; spec/70_reset_and_hazards.md
R230, R250; spec/60_exceptions.md R212). The step of Machine/Step.lean is what R71 says this collapses
to; here the handshake itself is the machine. -/

namespace Sys2Proof.Machine

/-- The input signals sampled at one rising edge of `clk` (R70). -/
structure PortInputs where
  rst : Bool
  cmd_valid : Bool
  cmd_word : Word32
  rsp_ready : Bool
  deriving DecidableEq, Repr

/-- What the port is doing (R71, R212). -/
inductive PortPhase where
  /-- Waiting for a command word. -/
  | idle
  /-- Executing the word accepted, with some cycles left. -/
  | executing (word : Word32) (cycles : Nat)
  /-- Presenting the response to the word accepted. -/
  | responding (word : Word32) (response : Word16)
  deriving DecidableEq, Repr

/-- The engine with its port. In `engine`, `responses` holds the responses already transferred. -/
structure Port where
  engine : State
  phase : PortPhase
  deriving DecidableEq, Repr

/-- The output `cmd_ready` (R70, R71(a)). DESIGN CHOICE: it is 1 after every reset edge, also while `rst`
is held; the spec gives it only from the first edge at which `rst` is 0 again (R230; log 17). -/
def Port.cmd_ready (p : Port) : Bool :=
  match p.phase with
  | .idle => true
  | .executing _ _ => false
  | .responding _ _ => false

/-- The output `rsp_valid` (R70). -/
def Port.rsp_valid (p : Port) : Bool :=
  match p.phase with
  | .idle => false
  | .executing _ _ => false
  | .responding _ _ => true

/-- The output `rsp_word`; while `rsp_valid` is 0 the spec gives it no value, and neither does the model
(log 8). -/
def Port.rsp_word (p : Port) : Option Word16 :=
  match p.phase with
  | .idle => none
  | .executing _ _ => none
  | .responding _ r => some r

/-- The command executed to completion (spec/20_memory.md R53), its response presented and not yet
transferred. A command that did not complete would leave the port executing; every one does. -/
def Port.complete (p : Port) (w : Word32) : Port :=
  match acceptCommand w p.engine with
  | .next t =>
    { engine := { t with responses := p.engine.responses }
      phase := .responding w (t.responses.getLastD 0) }
  | .fault _ => p
  | .refused _ => p

/-- One rising edge of `clk` (R70, R71, R230, R250): a reset wins over everything; a word is accepted
only when the port is idle; a response is held until it is taken. DESIGN CHOICE: nothing is
transferred at an edge with `rst` = 1, neither a response with `rsp_valid` and `rsp_ready` 1, which
is dropped (log 16), nor a command word with `cmd_valid` and `cmd_ready` 1, which is ignored
(log 17). -/
def Port.edge (x : PortInputs) (p : Port) : Port :=
  if x.rst then { engine := resetMove p.engine, phase := .idle }
  else
    match p.phase with
    | .idle =>
      if x.cmd_valid then
        { p with phase := .executing x.cmd_word (Config.latency x.cmd_word p.engine) }
      else p
    | .executing w (n + 1) => { p with phase := .executing w n }
    | .executing w 0 => p.complete w
    | .responding _ r => if x.rsp_ready then { engine := p.engine.receive r, phase := .idle } else p

/-- The host's move that an edge completes, as the step counts moves: a reset, or the command whose
response is transferred at this edge. A command cut short by a reset is no move (R233), nor is one
whose response a reset drops (R230; log 16). -/
def Port.completedMove (x : PortInputs) (p : Port) : Option HostMove :=
  if x.rst then some .reset
  else
    match p.phase with
    | .idle => none
    | .executing _ _ => none
    | .responding w _ => if x.rsp_ready then some (.command w) else none

/-- A series of edges, first edge first. -/
def Port.edges (xs : List PortInputs) (p : Port) : Port := xs.foldl (fun p x => Port.edge x p) p

/-- The moves completed in a series of edges, in order. -/
def Port.completedMoves : List PortInputs → Port → List HostMove
  | [], _ => []
  | x :: xs, p => (Port.completedMove x p).toList ++ Port.completedMoves xs (Port.edge x p)

end Sys2Proof.Machine
end

