-- ==== Sys2Proof/Machine/Sequences.lean ====
section
/-! DEFINITION. The host's sequences (spec/30_encoding.md R79): fixed series of commands for the buffer
operations of the source. All but `RANDOM32U` are lists of commands: the "if `OK`" of `CRYPTBUF` and
`COMPARE` is the host's rule to stop a sequence at the first response that is not `OK`
(spec/60_exceptions.md R206). -/

namespace Sys2Proof.Machine

/-! ### The host issues commands -/

/-- One command presented and its response taken: the state after, and the response. No value if the
machine stops, which it does on no command (log 15). -/
def issue (i : Instr) (s : State) : Option (State × Word16) :=
  match step (s.setHost (.command (encode i) :: s.host)) with
  | .next t => t.responses.getLast?.map fun r => (t, r)
  | .fault _ => none
  | .refused _ => none

/-- A series of commands, stopped after the first response whose status is not `OK` (R206): the state
after, and the responses received. -/
def issueAll : List Instr → State → Option (State × List Word16)
  | [], s => some (s, [])
  | i :: is, s =>
    match issue i s with
    | none => none
    | some (t, r) =>
      if statusField r = Status.ok.code then
        match issueAll is t with
        | none => none
        | some (u, rs) => some (u, r :: rs)
      else some (t, [r])

/-! ### Absorption and the stream cipher -/

/-- `ABSORB(buf)` (spec/41_absorb_squeeze.md R125): lowest index first. -/
def absorb (buf : List Byte) : List Instr := buf.map .absb

/-- `SETUP(key)` (spec/42_protocol.md R142). -/
def setup (key : List Byte) : List Instr := .init :: absorb key ++ [.shufp]

/-- `SETUPN(key, nonce)` (R143). -/
def setupWithNonce (key nonce : List Byte) : List Instr :=
  .init :: absorb key ++ .abss :: absorb nonce ++ [.shufp]

/-- The host's buffers of 2^24 bytes or more have no length word (spec/44_utility.md R181, U10). -/
def fitsLength (n : Nat) : Bool := decide (n < 2 ^ 24)

/-- `CRYPTBUF(input, outlen)` (R144); no commands for a length that does not fit (log 9). -/
def cryptBuf (input : List Byte) (outlen : Nat) : Option (List Instr) :=
  if fitsLength input.length && fitsLength outlen then
    some (.setla (BitVec.ofNat 24 input.length) :: .setlb (BitVec.ofNat 24 outlen) :: .lchk ::
      input.map .crypt)
  else none

/-- `CRYPTBUF` issued on a state. -/
def runCryptBuf (input : List Byte) (outlen : Nat) (s : State) : Option (State × List Word16) :=
  match cryptBuf input outlen with
  | none => none
  | some is => issueAll is s

/-- The output bytes of `CRYPTBUF`: the data bytes of its `CRYPT` responses (R144). DESIGN CHOICE: on an
engine without a context the one refused `CRYPT` counts, its data byte 0x00 being an output byte
(log 18). -/
def cryptBytes (rs : List Word16) : List Byte := (rs.drop 3).map dataField

/-! ### Hash and MAC -/

/-- `HSETUP` (R146). -/
def hashSetup : List Instr := [.init]

/-- `HUPDATE(data)` (R147). -/
def hashUpdate (data : List Byte) : List Instr := absorb data

/-- `HFINAL(L)` (R148); a digest length is one byte, so longer digests have no sequence (log 9). -/
def hashFinal (len : Byte) : List Instr :=
  .abss :: .absb len :: .shufp :: List.replicate len.toNat .drip

/-- `HASH(data, L)` (R149). -/
def hashOneShot (data : List Byte) (len : Byte) : List Instr :=
  hashSetup ++ hashUpdate data ++ hashFinal len ++ [.zeroize]

/-- `MSETUP(key)` (R150). -/
def macSetup (key : List Byte) : List Instr := .init :: absorb key ++ [.abss]

/-- `MUPDATE(msg)` (R151). -/
def macUpdate (msg : List Byte) : List Instr := absorb msg

/-- `MFINAL(L)` (R152): exactly the commands of `HFINAL(L)`. -/
def macFinal (len : Byte) : List Instr := hashFinal len

/-- `MAC(msg, key, L)` (R153). -/
def macOneShot (msg key : List Byte) (len : Byte) : List Instr :=
  macSetup key ++ macUpdate msg ++ macFinal len ++ [.zeroize]

/-- The digest of a one-shot sequence that issues `before` commands before its first `DRIP`: the data
bytes of its `DRIP` responses (R148). -/
def digestBytes (before : Nat) (len : Byte) (rs : List Word16) : List Byte :=
  ((rs.drop before).take len.toNat).map dataField

/-! ### Random generators (spec/43_random.md) -/

/-- `RANDOM8` (R170). -/
def random8 : List Instr := [.drip]

/-- `RANDOM32` (R171). -/
def random32 : List Instr := [.drip, .drip, .drip, .drip]

/-- The word of four bytes, the first the least significant (R171). -/
def packLittleEndian : List Byte → Option Word32
  | [b0, b1, b2, b3] => some (b3 ++ b2 ++ b1 ++ b0)
  | _ => none

/-- What one draw of `RANDOM32` gives the host (R171): a word, or the response of a drip that is not `OK`
("Statuses: those of `DRIP`"). -/
inductive Drawn where
  | word (v : Word32)
  | refused (r : Word16)
  deriving DecidableEq, Repr

/-- The first response whose status is not `OK`, where the host stops (spec/60_exceptions.md R206). -/
def refusalIn (rs : List Word16) : Option Word16 := rs.find? fun r => statusField r != Status.ok.code

/-- One draw of `RANDOM32`, and the state after it (R171). -/
def drawRandom32 (s : State) : Option (State × Drawn) :=
  match issueAll random32 s with
  | none => none
  | some (t, rs) =>
    match refusalIn rs with
    | some r => some (t, .refused r)
    | none => (packLittleEndian (rs.map dataField)).map fun v => (t, .word v)

/-- The bias `(0 - bound) mod bound`, the subtraction wrapping to 32 bits (R172). -/
def uniformMin (bound : Word32) : Word32 := (0 - bound) % bound

/-- What `RANDOM32U` gives the host (R172): a value, a response that is not `OK`, or, once the model's
bound on the draws is used up, neither (`MAXDRAWS`, U7; log 9). -/
inductive Sampled where
  | value (v : Word32)
  | refused (r : Word16)
  | drawsUsedUp
  deriving DecidableEq, Repr

/-- The rejection loop of R172 with a bound on the draws, which the rule does not have (U7; log 9). A
refused draw ends it with that response and the state after it ("Statuses: those of `DRIP`"). -/
def drawUniform : Nat → Word32 → State → Option (State × Sampled)
  | 0, _, s => some (s, .drawsUsedUp)
  | fuel + 1, bound, s =>
    match drawRandom32 s with
    | none => none
    | some (t, .refused r) => some (t, .refused r)
    | some (t, .word r) =>
      if r ≥ uniformMin bound then some (t, .value (r % bound)) else drawUniform fuel bound t

/-- `RANDOM32U(bound)` (R172); the test `bound < 2` comes first and issues no command. -/
def random32Uniform (fuel : Nat) (bound : Word32) (s : State) : Option (State × Sampled) :=
  if bound < 2 then some (s, .value 0) else drawUniform fuel bound s

/-! ### Compare -/

/-- `COMPARE(a, b)` (spec/44_utility.md R187): every position, no early exit. -/
def compareBuffers (a b : List Byte) : Option (List Instr) :=
  if fitsLength a.length && fitsLength b.length then
    some (.setla (BitVec.ofNat 24 a.length) :: .setlb (BitVec.ofNat 24 b.length) :: .lchk :: .cmpz ::
      List.zipWith .cmpa a b ++ [.cmpr])
  else none

/-- `COMPARE` issued on a state. -/
def runCompare (a b : List Byte) (s : State) : Option (State × List Word16) :=
  match compareBuffers a b with
  | none => none
  | some is => issueAll is s

end Sys2Proof.Machine
end

