-- ==== Sys2Proof/Safety.lean ====
section
/-! DEFINITION. The terms claims are stated in: the invariant of the machine (spec/10_state.md R27, R32),
what it means for a command to leave state alone, and the rules of the bodies as relations written
from the spec's own formulas, apart from the functions of Machine/ that compute them. -/

namespace Sys2Proof.Machine

/-! ### The invariant -/

/-- "`s` is always a permutation of 0..255 (never duplicates, never omits a value)" (R32). -/
def State.permuted (s : State) : Prop := Function.Bijective s.S.read

/-- What holds of a live context before and after every command (R32). -/
structure LiveContext (s : State) : Prop where
  permutation : s.permuted
  oddStep : s.W.toNat % 2 = 1
  counter : s.A.toNat ≤ 128

/-- What holds while no context exists: nothing of one is left (R27, R35; spec/44_utility.md R180). The
scratch registers are not named, since R29 lets any command leave any bytes in them. -/
structure NoContext (s : State) : Prop where
  memory : s.S = []
  walk : s.I = 0 ∧ s.J = 0 ∧ s.K = 0
  outputByte : s.Z = 0
  counter : s.A = 0
  walkStep : s.W = 0

/-- The invariant of every state a run reaches: the array's canonical form, and the flag `VALID`
telling a live context from none. -/
structure Inv (s : State) : Prop where
  canonical : s.S.wf = true
  live : s.VALID = true → LiveContext s
  dead : s.VALID = false → NoContext s

/-! ### Leaving state alone -/

/-- The registers of R21, R27, R29, R30 and R31 by name. -/
inductive RegName where
  | I | J | K | Z | A | W | T1 | T2 | VALID | LA | LB | CACC
  deriving DecidableEq, Repr

/-- The value of a register as a number. -/
def State.value (s : State) : RegName → Nat
  | .I => s.I.toNat
  | .J => s.J.toNat
  | .K => s.K.toNat
  | .Z => s.Z.toNat
  | .A => s.A.toNat
  | .W => s.W.toNat
  | .T1 => s.T1.toNat
  | .T2 => s.T2.toNat
  | .VALID => s.VALID.toNat
  | .LA => s.LA.toNat
  | .LB => s.LB.toNat
  | .CACC => s.CACC.toNat

/-- Every register but those named holds after what it held before. -/
def KeepsRegisters (written : List RegName) (s t : State) : Prop :=
  ∀ r, r ∉ written → t.value r = s.value r

/-- Every entry of `S` reads after as it read before. -/
def KeepsArray (s t : State) : Prop := ∀ a : Byte, t.S.read a = s.S.read a

/-- The state a rule gives, with its one response: the host's stream is untouched and the response word
is the last one received (spec/30_encoding.md R71). -/
def Responds (r : Word16) (s t : State) : Prop :=
  t.host = s.host ∧ t.responses = s.responses ++ [r]

/-- The command `i` on `s` ends in `t` with the one response `r`. -/
def Completes (i : Instr) (s t : State) (r : Word16) : Prop := exec i s = .next t ∧ Responds r s t

/-- The cipher context (spec/10_state.md R20, first group, without the scratch registers) and `VALID`
agree. -/
def SameContext (s t : State) : Prop :=
  KeepsArray s t ∧ KeepsRegisters [.T1, .T2, .LA, .LB, .CACC] s t

/-! ### The bodies of spec/40_permutation_core.md as relations -/

/-- Entries `x` and `y` exchanged, every other entry as before (R101). -/
def Exchanged (x y : Byte) (s t : State) : Prop :=
  ∀ a : Byte, t.S.read a = if a = x then s.S.read y else if a = y then s.S.read x else s.S.read a

/-- One update (R102): the new `I` and the old `J` and `K` give the new `J`; the new `J`, the old `K`
and the new `I` give the new `K`; then the entries at the new `I` and `J` are exchanged. -/
structure Updated (s t : State) : Prop where
  walkI : t.I = s.I + s.W
  walkJ : t.J = s.S.read (s.S.read t.I + s.J) + s.K
  walkK : t.K = s.S.read t.J + s.K + t.I
  array : Exchanged t.I t.J s t
  frame : KeepsRegisters [.I, .J, .K, .T1, .T2] s t

/-- One whip (R103): a chain of 512 updates, then `W` grows by 2. -/
def Whipped (s t : State) : Prop :=
  ∃ u : Nat → State, u 0 = s ∧ (∀ n, n < 512 → Updated (u n) (u (n + 1))) ∧
    KeepsArray (u 512) t ∧ t.W = (u 512).W + 2 ∧ KeepsRegisters [.W, .T1, .T2] (u 512) t

/-- One crush (R104): of each pair `v`, `255 - v` the smaller byte is at the lower index. -/
structure Crushed (s t : State) : Prop where
  lower : ∀ v : Byte, v.toNat < 128 →
    (t.S.read v).toNat = min (s.S.read v).toNat (s.S.read (255 - v)).toNat
  upper : ∀ v : Byte, v.toNat < 128 →
    (t.S.read (255 - v)).toNat = max (s.S.read v).toNat (s.S.read (255 - v)).toNat
  frame : KeepsRegisters [.T1, .T2] s t

/-- One shuffle (R105): whip, crush, whip, crush, whip, then `A` becomes 0. -/
def Shuffled (s t : State) : Prop :=
  ∃ a b c d e : State, Whipped s a ∧ Crushed a b ∧ Whipped b c ∧ Crushed c d ∧ Whipped d e ∧
    KeepsArray e t ∧ t.A = 0 ∧ KeepsRegisters [.A, .T1, .T2] e t

/-- A shuffle made exactly when a test of the command holds (R80). -/
def ShuffledWhen (fires : Prop) (s t : State) : Prop := (fires → Shuffled s t) ∧ (¬ fires → t = s)

/-! ### Who may write what (R21, R27, R29, R30, R31) -/

/-- The registers a command may write: the table of R21, with `VALID` (R27), the length registers (R30),
the accumulator (R31), and the scratch registers, which any command may leave with any bytes but
`INIT` (R100) and `LCHK` (spec/44_utility.md R183). -/
def mayWrite : Mnemonic → List RegName
  | .INIT => [.I, .J, .K, .Z, .A, .W, .VALID]
  | .SWAP => [.T1, .T2]
  | .UPDATE => [.I, .J, .K, .T1, .T2]
  | .WHIP => [.I, .J, .K, .W, .T1, .T2]
  | .CRUSH => [.T1, .T2]
  | .SHUFFLE => [.I, .J, .K, .A, .W, .T1, .T2]
  | .ABSN => [.I, .J, .K, .A, .W, .T1, .T2]
  | .ABSB => [.I, .J, .K, .A, .W, .T1, .T2]
  | .ABSS => [.I, .J, .K, .A, .W, .T1, .T2]
  | .OUTPUT => [.Z, .T1, .T2]
  | .DRIP => [.I, .J, .K, .Z, .A, .W, .T1, .T2]
  | .SHUFP => [.I, .J, .K, .A, .W, .T1, .T2]
  | .CRYPT => [.I, .J, .K, .Z, .A, .W, .T1, .T2]
  | .ZEROIZE => [.I, .J, .K, .Z, .A, .W, .T1, .T2, .VALID, .LA, .LB, .CACC]
  | .SETLA => [.T1, .T2, .LA]
  | .SETLB => [.T1, .T2, .LB]
  | .LCHK => []
  | .CMPZ => [.T1, .T2, .CACC]
  | .CMPA => [.T1, .T2, .CACC]
  | .CMPR => [.T1, .T2]

/-- Whether a command may write an entry of `S`: the first column of R21. -/
def mayWriteArray : Mnemonic → Bool
  | .INIT => true
  | .SWAP => true
  | .UPDATE => true
  | .WHIP => true
  | .CRUSH => true
  | .SHUFFLE => true
  | .ABSN => true
  | .ABSB => true
  | .ABSS => true
  | .OUTPUT => false
  | .DRIP => true
  | .SHUFP => true
  | .CRYPT => true
  | .ZEROIZE => true
  | .SETLA => false
  | .SETLB => false
  | .LCHK => false
  | .CMPZ => false
  | .CMPA => false
  | .CMPR => false

/-! ### The port beside the step (spec/30_encoding.md R71) -/

/-- Two states the same in all the spec fixes: everything but the scratch registers, whose bytes no rule
gives and no command shows (spec/10_state.md R29; log 3), and the model's count of those bytes. -/
def SameButScratch (s t : State) : Prop :=
  KeepsArray s t ∧ KeepsRegisters [.T1, .T2] s t ∧ t.host = s.host ∧ t.responses = s.responses

/-- The state the step's machine is in while the port is where it is: a command counts once its response
has been transferred. -/
def Port.agrees (p : Port) (s : State) : Prop :=
  match p.phase with
  | .idle => SameButScratch s p.engine
  | .executing _ _ => SameButScratch s p.engine
  | .responding w r => ∃ t, acceptCommand w s = .next t ∧ SameButScratch t (p.engine.receive r)

/-- The host's moves made one after the other by the step's machine. -/
def playMoves : List HostMove → State → Option State
  | [], s => some s
  | m :: ms, s =>
    match step (s.setHost [m]) with
    | .next t => playMoves ms t
    | .fault _ => none
    | .refused _ => none

end Sys2Proof.Machine
end

