-- ==== Sys2Proof/Certificates/Slice0/Obligations.lean ====
section
/-! DEFINITION. The statements for the provers. In the frames, `T1` and `T2` are left out wherever
spec/10_state.md R29 lets a command leave any bytes in them, so no statement rests on what log 3
chose. Response words are written as numerals: 0x0000 is `OK` with data 0x00, 0x0100
`LENGTH_MISMATCH`, 0x0200 `ILLEGAL_COMMAND`, 0x0300 `NOT_INITIALISED` (spec/30_encoding.md R73). -/

open Sys2Proof Sys2Proof.Machine

/-! ### Encoding (30_encoding.md) -/

/-- Every command's word decodes to that command, operands and all (R72, R74, R75). -/
def Obligations.DecodeOfEncode : Prop :=
  ∀ i : Instr, decode (encode i) = .command i

/-- A word that decodes to a command is that command's one word: no bit of it is ignored (R74, R76). -/
def Obligations.EncodeOfDecode : Prop :=
  ∀ (w : Word32) (i : Instr), decode w = .command i → encode i = w

/-- "a word `w` is that command when `w AND mask == match`" (R75, first sentences), for the twenty rows
of the opcode map; and no word is two commands. -/
def Obligations.DecodeFollowsMatchAndMask : Prop :=
  ∀ (w : Word32) (m : Mnemonic),
    ((∃ i, decode w = .command i ∧ i.mnemonic = m) ↔ w &&& m.mask = m.matchWord) ∧
    ∀ m' : Mnemonic, w &&& m.mask = m.matchWord → w &&& m'.mask = m'.matchWord → m = m'

/-- R76: which words are illegal, and what the engine does with one, in every state. -/
def Obligations.IllegalWordsAreAnsweredAndChangeNothing : Prop :=
  (∀ w : Word32, (∃ why, decode w = .illegal why) ↔
    ((∀ m : Mnemonic, opField w ≠ m.op) ∨
     ∃ m : Mnemonic, opField w = m.op ∧ argField w &&& m.format.reserved ≠ 0)) ∧
  (∀ (w : Word32) (why : Illegal) (s : State), decode w = .illegal why →
    acceptCommand w s = .next (s.receive 0x0200)) ∧
  (∀ w ∈ ([0x00000000, 0x07000000, 0x10000010, 0x01000001, 0x02010000] : List Word32),
    ∃ why, decode w = .illegal why) ∧
  decode 0x31FFFFFF = .command (.setla 0xFFFFFF)

/-- Words of V-ENC-1 (95_test_vectors.md), one for each operand format, decode to their commands. -/
def Obligations.SpecWordsDecode : Prop :=
  decode 0x14000000 = .command .drip ∧ decode 0x10000005 = .command (.absn 5) ∧
  decode 0x21000053 = .command (.crypt 0x53) ∧ decode 0x020003C8 = .command (.swap 3 200) ∧
  decode 0x32FFFFFF = .command (.setlb 0xFFFFFF) ∧ decode 0x35006364 = .command (.cmpa 0x63 0x64)

/-- The assembler's word of the line that writes a command is the encoder's (R78: "`word = (op << 24) |
arg` with `arg` built as rule R74 says"). -/
def Obligations.AssemblerAgreesWithEncoder : Prop :=
  ∀ i : Instr, assemble (lineOfInstr i) = some (encode i)

/-- The assembler "refuses an operand that does not fit its field (a nibble above 15, a byte above 255, a
length above 16777215); it never truncates" (R78): it accepts such a line exactly when the number fits. -/
def Obligations.AssemblerRefusesWhatDoesNotFit : Prop :=
  ∀ n : Nat,
    ((assemble ⟨.ABSN, [.number n]⟩).isSome ↔ n ≤ 15) ∧
    ((assemble ⟨.ABSB, [.number n]⟩).isSome ↔ n ≤ 255) ∧
    ((assemble ⟨.CRYPT, [.number n]⟩).isSome ↔ n ≤ 255) ∧
    (∀ k : Nat, (assemble ⟨.SWAP, [.number n, .number k]⟩).isSome ↔ n ≤ 255 ∧ k ≤ 255) ∧
    (∀ k : Nat, (assemble ⟨.CMPA, [.number n, .number k]⟩).isSome ↔ n ≤ 255 ∧ k ≤ 255) ∧
    ((assemble ⟨.SETLA, [.number n]⟩).isSome ↔ n ≤ 16777215) ∧
    ((assemble ⟨.SETLB, [.number n]⟩).isSome ↔ n ≤ 16777215)

/-! ### The step, the response and the status (30_encoding.md, 60_exceptions.md, 70_reset_and_hazards.md) -/

/-- A step runs the decoded command: the host's next word, executed on the state from which that word has
been taken; nothing else happens around it. -/
def Obligations.StepRunsTheDecodedCommand : Prop :=
  ∀ (s : State) (w : Word32) (rest : List HostMove) (i : Instr),
    s.host = .command w :: rest → decode w = .command i → step s = exec i { s with host := rest }

/-- A step with nothing left for the host to do waits, changing nothing (log 1: the model's choice). -/
def Obligations.StepWaitsForTheHost : Prop :=
  ∀ s : State, s.host = [] → step s = .next s

/-- The host's reset, as a move between two commands, "maps any state to the reset state" (70 R233); what
the host has received and what it still does are not the engine's (log 4: the model's choice). -/
def Obligations.StepResetsTheEngine : Prop :=
  ∀ (s : State) (rest : List HostMove), s.host = .reset :: rest →
    ∃ t, step s = .next t ∧ (∀ v : Byte, t.S.read v = 0) ∧ (∀ r, t.value r = 0) ∧
      t.host = rest ∧ t.responses = s.responses

/-- R71(b), (c), (d): every command word the host presents, legal or not, in any state, is taken from the
stream and answered with exactly one response word. -/
def Obligations.EveryWordGetsOneResponse : Prop :=
  ∀ (s : State) (w : Word32) (rest : List HostMove), s.host = .command w :: rest →
    ∃ t r, step s = .next t ∧ t.host = rest ∧ t.responses = s.responses ++ [r]

/-- R77: the status of the response is the first that applies, and in the cases that are not `OK` no
state changes. The order is stated from the rule's text, not from the meanings. -/
def Obligations.StatusFollowsTheDecodeOrder : Prop :=
  ∀ (w : Word32) (s : State),
    (∀ why, decode w = .illegal why → acceptCommand w s = .next (s.receive 0x0200)) ∧
    (∀ i, decode w = .command i → i.mnemonic.needsValid = true → s.VALID = false →
      acceptCommand w s = .next (s.receive 0x0300)) ∧
    (decode w = .command .lchk → s.LA ≠ s.LB → acceptCommand w s = .next (s.receive 0x0100)) ∧
    (∀ i, decode w = .command i → (i.mnemonic.needsValid = true → s.VALID = true) →
      (i = .lchk → s.LA = s.LB) →
      ∃ (t : State) (d : Byte), acceptCommand w s = .next t ∧ t.responses = s.responses ++ [(0x00 : Byte) ++ d])

/-- The one-function form of R77, `statusOf`, gives the status byte of every response. -/
def Obligations.StatusByteIsStatusOf : Prop :=
  ∀ (w : Word32) (s t : State) (r : Word16), acceptCommand w s = .next t →
    t.responses = s.responses ++ [r] → statusField r = (statusOf w s).code

/-- R200: four codes and no other; 0x01 is raised by `LCHK` only, on unequal lengths; 0x02 by illegal
words only; 0x03 by the twelve commands that need a context only, while there is none. With a status
that is not `OK` the data byte is 0x00 and the cause is recorded nowhere but in the response. -/
def Obligations.OnlyFourStatuses : Prop :=
  ∀ (w : Word32) (s t : State) (r : Word16), acceptCommand w s = .next t →
    t.responses = s.responses ++ [r] →
    (statusField r).toNat ≤ 3 ∧
    (statusField r = 0x01 → decode w = .command .lchk ∧ s.LA ≠ s.LB) ∧
    (statusField r = 0x02 → ∃ why, decode w = .illegal why) ∧
    (statusField r = 0x03 → s.VALID = false ∧ ∃ i, decode w = .command i ∧ i.mnemonic ∈
      [.SWAP, .UPDATE, .WHIP, .CRUSH, .SHUFFLE, .ABSN, .ABSB, .ABSS, .OUTPUT, .DRIP, .SHUFP, .CRYPT]) ∧
    (statusField r ≠ 0x00 → dataField r = 0x00 ∧ t = s.receive r)

/-- R203: a status that is not `OK` comes with data 0x00, and every bit of the engine's state is as it was:
the state after is the state before with that one response received. -/
def Obligations.RaisingChangesNothing : Prop :=
  ∀ (w : Word32) (s t : State) (r : Word16), acceptCommand w s = .next t →
    t.responses = s.responses ++ [r] → statusField r ≠ 0x00 → dataField r = 0x00 ∧ t = s.receive r

/-- R204: a command that operates on a context answers `NOT_INITIALISED` while there is none; the twelve
commands are written out. -/
def Obligations.EngineCommandsNeedAContext : Prop :=
  ∀ (i : Instr) (s : State), s.VALID = false →
    i.mnemonic ∈
      [.SWAP, .UPDATE, .WHIP, .CRUSH, .SHUFFLE, .ABSN, .ABSB, .ABSS, .OUTPUT, .DRIP, .SHUFP, .CRYPT] →
    exec i s = .next (s.receive 0x0300)

/-- R73, for every word, legal or not: the status is in bits 15:8 and is one of the four codes; the data
byte is in bits 7:0 and is the byte result of `OUTPUT`, `DRIP`, `CRYPT` and `CMPR` when the status is
`OK`, and 0x00 for every other command and whenever the status is not `OK`. -/
def Obligations.DataByteOnlyFromFourCommands : Prop :=
  (∀ (st : Status) (d : Byte), (responseWord st d).extractLsb' 8 8 = st.code ∧
    (responseWord st d).extractLsb' 0 8 = d) ∧
  ∀ (w : Word32) (s t : State) (r : Word16), acceptCommand w s = .next t →
    t.responses = s.responses ++ [r] →
    (statusField r = 0x00 ∨ statusField r = 0x01 ∨ statusField r = 0x02 ∨ statusField r = 0x03) ∧
    (statusField r ≠ 0x00 → dataField r = 0x00) ∧
    (∀ i, decode w = .command i → i.mnemonic ∉ [.OUTPUT, .DRIP, .CRYPT, .CMPR] → dataField r = 0x00) ∧
    (statusField r = 0x00 →
      (decode w = .command .output → dataField r = t.Z) ∧
      (decode w = .command .drip → dataField r = t.Z) ∧
      (∀ d, decode w = .command (.crypt d) → dataField r = d ^^^ t.Z) ∧
      (decode w = .command .cmpr → dataField r = if s.CACC = 0 then 0x00 else 0x01))

/-! ### The state after reset (10_state.md) -/

/-- R35, both columns: after reset every piece of state is zero; `INIT` from there gives the second column;
`ZEROIZE` from any state leaves the first again. -/
def Obligations.ResetIsAllZero : Prop :=
  (∀ v : Byte, State.reset.S.read v = 0) ∧ (∀ r, State.reset.value r = 0) ∧
  (∃ t, exec .init State.reset = .next t ∧ (∀ v : Byte, t.S.read v = v) ∧ t.I = 0 ∧ t.J = 0 ∧ t.K = 0 ∧
    t.Z = 0 ∧ t.A = 0 ∧ t.W = 1 ∧ t.VALID = true ∧
    KeepsRegisters [.I, .J, .K, .Z, .A, .W, .VALID] State.reset t) ∧
  ∀ s : State, ∃ t, exec .zeroize s = .next t ∧ (∀ v : Byte, t.S.read v = State.reset.S.read v) ∧
    ∀ r, t.value r = State.reset.value r

/-! ### Permutation core (40_permutation_core.md) -/

/-- R100: `INIT` in every state, live or not; a second `INIT` changes nothing more. -/
def Obligations.InitCreatesTheContext : Prop :=
  encode .init = 0x01000000 ∧
  ∀ s : State, ∃ t, Completes .init s t 0x0000 ∧ (∀ v : Byte, t.S.read v = v) ∧
    t.I = 0 ∧ t.J = 0 ∧ t.K = 0 ∧ t.Z = 0 ∧ t.A = 0 ∧ t.W = 1 ∧ t.VALID = true ∧
    KeepsRegisters [.I, .J, .K, .Z, .A, .W, .VALID] s t ∧
    ∃ u, Completes .init t u 0x0000 ∧ KeepsArray t u ∧ KeepsRegisters [] t u

/-- R101: `SWAP x, y` exchanges two entries and changes no other; a permutation stays one; the same swap
again, or with the operands the other way round, restores `S`; `x == y` changes no entry. -/
def Obligations.SwapExchangesTwoEntries : Prop :=
  ∀ (x y : Byte) (s : State),
    encode (.swap x y) = (0x02000000 : Word32) ||| x.setWidth 32 <<< 8 ||| y.setWidth 32 ∧
    (s.VALID = false → exec (.swap x y) s = .next (s.receive 0x0300)) ∧
    (s.VALID = true → ∃ t, Completes (.swap x y) s t 0x0000 ∧ Exchanged x y s t ∧
      KeepsRegisters [.T1, .T2] s t ∧ (s.permuted → t.permuted) ∧ (x = y → KeepsArray s t) ∧
      (∃ u, Completes (.swap x y) t u 0x0000 ∧ KeepsArray s u) ∧
      (∃ u, Completes (.swap y x) t u 0x0000 ∧ KeepsArray s u))

/-- R102: `UPDATE` is one step of the index walk, in the order of its four statements. -/
def Obligations.UpdateIsOneWalkStep : Prop :=
  encode .update = 0x03000000 ∧
  ∀ s : State,
    (s.VALID = false → exec .update s = .next (s.receive 0x0300)) ∧
    (s.VALID = true → ∃ t, Completes .update s t 0x0000 ∧ Updated s t ∧
      (t.I = t.J → KeepsArray s t))

/-- R103: `WHIP` is 512 updates with the old `W` and then `W + 2`; `I` comes back to where it was, an odd
`W` stays odd, and 255 is followed by 1. -/
def Obligations.WhipIsFiveHundredTwelveUpdates : Prop :=
  encode .whip = 0x04000000 ∧
  ∀ s : State,
    (s.VALID = false → exec .whip s = .next (s.receive 0x0300)) ∧
    (s.VALID = true → ∃ t, Completes .whip s t 0x0000 ∧ Whipped s t ∧ t.I = s.I ∧ t.W = s.W + 2 ∧
      (s.W.toNat % 2 = 1 → t.W.toNat % 2 = 1) ∧ (s.W = 255 → t.W = 1) ∧
      KeepsRegisters [.J, .K, .W, .T1, .T2] s t)

/-- R104: `CRUSH` puts the smaller byte of each of the 128 pairs at the lower index; in a live context every
pair is then strictly in order; a second crush changes no entry. -/
def Obligations.CrushSortsEachPair : Prop :=
  encode .crush = 0x05000000 ∧
  ∀ s : State,
    (s.VALID = false → exec .crush s = .next (s.receive 0x0300)) ∧
    (s.VALID = true → ∃ t, Completes .crush s t 0x0000 ∧ Crushed s t ∧
      (s.permuted → ∀ v : Byte, v.toNat < 128 → t.S.read v < t.S.read (255 - v)) ∧
      ∃ u, Completes .crush t u 0x0000 ∧ KeepsArray t u)

/-- R105: `SHUFFLE` is whip, crush, whip, crush, whip and `A <- 0`; net, `W` grows by 6, `I` and `Z` stay,
`A` is 0 whatever it was. -/
def Obligations.ShuffleIsThreeWhipsAndTwoCrushes : Prop :=
  encode .shuffle = 0x06000000 ∧
  ∀ s : State,
    (s.VALID = false → exec .shuffle s = .next (s.receive 0x0300)) ∧
    (s.VALID = true → ∃ t, Completes .shuffle s t 0x0000 ∧ Shuffled s t ∧ t.A = 0 ∧ t.W = s.W + 6 ∧
      KeepsRegisters [.J, .K, .A, .W, .T1, .T2] s t)

/-- R106: after `INIT` from any state, live or not, and after each of the five other commands of the core
from a permutation, the array is a permutation. -/
def Obligations.CoreCommandsKeepThePermutation : Prop :=
  ∀ (i : Instr) (s t : State),
    i.mnemonic ∈ [.INIT, .SWAP, .UPDATE, .WHIP, .CRUSH, .SHUFFLE] →
    (i ≠ .init → Function.Bijective fun a : Byte => s.S.read a) → exec i s = .next t →
    Function.Bijective fun a : Byte => t.S.read a

/-! ### Absorb and squeeze (41_absorb_squeeze.md) -/

/-- R120: `ABSN n` shuffles first when `A == 128`, then swaps the entries `A` and `128 + n` and counts up;
with `A` in its range the index is 0..127 and the new `A` is 1..128. -/
def Obligations.AbsorbNibbleSwapsAtTheCounter : Prop :=
  ∀ (n : Nibble) (s : State),
    encode (.absn n) = (0x10000000 : Word32) ||| n.setWidth 32 ∧
    (s.VALID = false → exec (.absn n) s = .next (s.receive 0x0300)) ∧
    (s.VALID = true → ∃ m t, ShuffledWhen (s.A = 128) s m ∧ Completes (.absn n) s t 0x0000 ∧
      Exchanged m.A (128 + n.setWidth 8) m t ∧ t.A = m.A + 1 ∧ KeepsRegisters [.A, .T1, .T2] m t ∧
      (s.A.toNat ≤ 128 → m.A.toNat ≤ 127 ∧ t.A.toNat = m.A.toNat + 1))

/-- R121: `ABSB b` is exactly `ABSN` of the low nibble and then of the high nibble, and never do both
nibbles find the counter saturated. -/
def Obligations.AbsorbByteIsTwoNibblesLowFirst : Prop :=
  ∀ (b : Byte) (s : State),
    encode (.absb b) = (0x11000000 : Word32) ||| b.setWidth 32 ∧
    (s.VALID = false → exec (.absb b) s = .next (s.receive 0x0300)) ∧
    (s.VALID = true → ∃ m u t, Completes (.absn (BitVec.ofNat 4 (b.toNat % 16))) s m 0x0000 ∧
      Completes (.absn (BitVec.ofNat 4 (b.toNat / 16))) m u 0x0000 ∧ Completes (.absb b) s t 0x0000 ∧
      KeepsArray u t ∧ KeepsRegisters [.T1, .T2] u t ∧ ¬ (s.A = 128 ∧ m.A = 128))

/-- R122: `ABSS` shuffles first when `A == 128`, then counts up with no swap. -/
def Obligations.AbsorbStopOnlyCounts : Prop :=
  encode .abss = 0x12000000 ∧
  ∀ s : State,
    (s.VALID = false → exec .abss s = .next (s.receive 0x0300)) ∧
    (s.VALID = true → ∃ m t, ShuffledWhen (s.A = 128) s m ∧ Completes .abss s t 0x0000 ∧
      KeepsArray m t ∧ t.A = m.A + 1 ∧ KeepsRegisters [.A, .T1, .T2] m t)

/-- R123: `OUTPUT` reads through the array three times, the innermost index with the old `Z`, keeps the
byte in `Z` and returns it; it tests no counter and changes nothing else. -/
def Obligations.OutputReadsThroughTheArray : Prop :=
  encode .output = 0x13000000 ∧
  ∀ s : State,
    (s.VALID = false → exec .output s = .next (s.receive 0x0300)) ∧
    (s.VALID = true → ∃ t, Completes .output s t ((0x00 : Byte) ++ t.Z) ∧
      t.Z = s.S.read (s.S.read (s.S.read (s.Z + s.K) + s.I) + s.J) ∧
      KeepsArray s t ∧ KeepsRegisters [.Z, .T1, .T2] s t)

/-- R124: `DRIP` shuffles first when nibbles are pending, then makes one update, then outputs; after it
`A == 0`. -/
def Obligations.DripShufflesUpdatesAndOutputs : Prop :=
  encode .drip = 0x14000000 ∧
  ∀ s : State,
    (s.VALID = false → exec .drip s = .next (s.receive 0x0300)) ∧
    (s.VALID = true → ∃ m u t, ShuffledWhen (0 < s.A.toNat) s m ∧ Updated m u ∧
      Completes .drip s t ((0x00 : Byte) ++ t.Z) ∧
      t.Z = u.S.read (u.S.read (u.S.read (u.Z + u.K) + u.I) + u.J) ∧
      KeepsArray u t ∧ KeepsRegisters [.Z, .T1, .T2] u t ∧ t.A = 0)

/-! ### Protocol (42_protocol.md) -/

/-- R140: `SHUFP` shuffles exactly when nibbles are pending; after it `A == 0`; a second `SHUFP` changes
nothing of the context. -/
def Obligations.ShuffleIfPending : Prop :=
  encode .shufp = 0x20000000 ∧
  ∀ s : State,
    (s.VALID = false → exec .shufp s = .next (s.receive 0x0300)) ∧
    (s.VALID = true → ∃ m t, ShuffledWhen (0 < s.A.toNat) s m ∧ Completes .shufp s t 0x0000 ∧
      KeepsArray m t ∧ KeepsRegisters [.T1, .T2] m t ∧ t.A = 0 ∧
      ∃ u, Completes .shufp t u 0x0000 ∧ KeepsArray t u ∧ KeepsRegisters [.T1, .T2] t u)

/-- R141: `CRYPT d` leaves exactly the state `DRIP` leaves and answers `d XOR` the byte `DRIP` answers; in
particular the state does not depend on `d`, and `CRYPT` of the answer from the same state gives `d`. -/
def Obligations.CryptIsDripXored : Prop :=
  ∀ (d : Byte) (s : State),
    encode (.crypt d) = (0x21000000 : Word32) ||| d.setWidth 32 ∧
    (s.VALID = false → exec (.crypt d) s = .next (s.receive 0x0300)) ∧
    (s.VALID = true → ∃ t u k, Completes .drip s u ((0x00 : Byte) ++ k) ∧
      Completes (.crypt d) s t ((0x00 : Byte) ++ (d ^^^ k)) ∧
      KeepsArray u t ∧ KeepsRegisters [.T1, .T2] u t ∧
      ∃ v, Completes (.crypt (d ^^^ k)) s v ((0x00 : Byte) ++ d) ∧
        KeepsArray t v ∧ KeepsRegisters [.T1, .T2] t v)

/-! ### Utility (44_utility.md) -/

/-- R180: `ZEROIZE` is legal in every state and leaves every entry and every register 0, `VALID` among
them: the reset state. -/
def Obligations.ZeroizeLeavesTheResetState : Prop :=
  encode .zeroize = 0x30000000 ∧
  ∀ s : State, ∃ t, Completes .zeroize s t 0x0000 ∧ (∀ v : Byte, t.S.read v = 0) ∧ t.VALID = false ∧
    ∀ r, t.value r = State.reset.value r ∧ t.value r = 0

/-- R181, R182: `SETLA` and `SETLB` load their register with the whole of `arg`, in every state. -/
def Obligations.SetLengthsLoadTheirRegisters : Prop :=
  ∀ (len : Word24) (s : State),
    encode (.setla len) = (0x31000000 : Word32) ||| len.setWidth 32 ∧
    encode (.setlb len) = (0x32000000 : Word32) ||| len.setWidth 32 ∧
    (∃ t, Completes (.setla len) s t 0x0000 ∧ t.LA = len ∧ KeepsArray s t ∧
      KeepsRegisters [.T1, .T2, .LA] s t) ∧
    (∃ t, Completes (.setlb len) s t 0x0000 ∧ t.LB = len ∧ KeepsArray s t ∧
      KeepsRegisters [.T1, .T2, .LB] s t)

/-- R183: `LCHK` answers `OK` when the lengths agree and `LENGTH_MISMATCH` when they do not, and changes no
state in either case, so the same check again gives the same answer. -/
def Obligations.LengthCheckComparesAndChangesNothing : Prop :=
  encode .lchk = 0x33000000 ∧
  ∀ s : State,
    (s.LA = s.LB → exec .lchk s = .next (s.receive 0x0000)) ∧
    (s.LA ≠ s.LB → exec .lchk s = .next (s.receive 0x0100)) ∧
    ∃ t u r, exec .lchk s = .next t ∧ t.responses = s.responses ++ [r] ∧
      exec .lchk t = .next u ∧ u.responses = s.responses ++ [r, r]

/-- R184, R185: `CMPZ` clears the accumulator; `CMPA x, y` ORs `x XOR y` into it, with the same response
whether or not the bytes are equal. -/
def Obligations.CompareUnitAccumulates : Prop :=
  encode .cmpz = 0x34000000 ∧
  ∀ (x y : Byte) (s : State),
    encode (.cmpa x y) = (0x35000000 : Word32) ||| x.setWidth 32 <<< 8 ||| y.setWidth 32 ∧
    (∃ t, Completes .cmpz s t 0x0000 ∧ t.CACC = 0 ∧ KeepsArray s t ∧
      KeepsRegisters [.T1, .T2, .CACC] s t) ∧
    (∃ t, Completes (.cmpa x y) s t 0x0000 ∧ t.CACC = s.CACC ||| (x ^^^ y) ∧ KeepsArray s t ∧
      KeepsRegisters [.T1, .T2, .CACC] s t)

/-- R186: `CMPR` answers the accumulator folded by shifts of 4, 2 and 1 to its least-significant bit: 0x00
exactly when the accumulator is 0, else 0x01; the accumulator is not changed. -/
def Obligations.CompareResultIsTheFoldedBit : Prop :=
  encode .cmpr = 0x36000000 ∧
  ∀ s : State, ∃ (t : State) (r1 r2 r3 : Byte),
    r1 = s.CACC ||| (s.CACC >>> 4) ∧ r2 = r1 ||| (r1 >>> 2) ∧ r3 = r2 ||| (r2 >>> 1) ∧
    Completes .cmpr s t ((0x00 : Byte) ++ (r3 &&& 0x01)) ∧
    (r3 &&& 0x01) = (if s.CACC = 0 then 0x00 else 0x01) ∧
    KeepsArray s t ∧ KeepsRegisters [.T1, .T2] s t

/-! ### Whole-machine rules -/

/-- The reset state meets the invariant: nothing of a context is left (R27, R35), and the array's list has
its canonical form (log 6: the model's representation). -/
def Obligations.ResetMeetsTheInvariant : Prop := Inv State.reset

/-- Every step keeps the invariant, from every state that has it: a live context has a permutation in `S`,
an odd `W` and `A` in 0..128 (R32), a machine without a context holds nothing of one (R27, R35), and
the array's list keeps its canonical form (log 6: the model's representation). -/
def Obligations.StepKeepsTheInvariant : Prop :=
  ∀ s t : State, Inv s → step s = .next t → Inv t

/-- R27: `VALID` is set by `INIT`, cleared by `ZEROIZE`, and changed by no other command word. -/
def Obligations.OnlyInitAndZeroizeChangeValid : Prop :=
  ∀ (w : Word32) (s t : State), acceptCommand w s = .next t →
    (decode w = .command .init → t.VALID = true) ∧
    (decode w = .command .zeroize → t.VALID = false) ∧
    (decode w ≠ .command .init → decode w ≠ .command .zeroize → t.VALID = s.VALID)

/-- The table of R21 with the registers of R27, R30 and R31: a command leaves alone every register its row
does not mark written, and the array where the row does not mark it written. `T1` and `T2`, which R29
leaves to every command, are kept by `INIT` (R100) and `LCHK` (R183). -/
def Obligations.CommandsWriteOnlyTheirRow : Prop :=
  ∀ (i : Instr) (s t : State), exec i s = .next t →
    KeepsRegisters (mayWrite i.mnemonic) s t ∧ (mayWriteArray i.mnemonic = false → KeepsArray s t)

/-- No read-back (R34, R38): but for `OUTPUT`, `DRIP` and `CRYPT`, what a command answers does not depend
on the cipher context; states that agree on `VALID` and on the compare unit get the same answer. -/
def Obligations.OnlyOutputDripAndCryptRevealTheContext : Prop :=
  ∀ (i : Instr) (s s' t t' : State) (r r' : Word16),
    i.mnemonic ∉ [.OUTPUT, .DRIP, .CRYPT] →
    s.VALID = s'.VALID → s.LA = s'.LA → s.LB = s'.LB → s.CACC = s'.CACC →
    exec i s = .next t → t.responses = s.responses ++ [r] →
    exec i s' = .next t' → t'.responses = s'.responses ++ [r'] → r = r'

/-- What a command does to the cipher context, and what it answers, depends on nothing but the cipher
context, `VALID` and the compare unit: not on the scratch registers, the host's stream or earlier
responses (R20, R29, R55). -/
def Obligations.ScratchRegistersAreUnobservable : Prop :=
  ∀ (i : Instr) (s s' t t' : State) (r r' : Word16),
    KeepsArray s s' → KeepsRegisters [.T1, .T2] s s' →
    exec i s = .next t → t.responses = s.responses ++ [r] →
    exec i s' = .next t' → t'.responses = s'.responses ++ [r'] →
    r = r' ∧ KeepsArray t t' ∧ KeepsRegisters [.T1, .T2] t t'

/-! ### Sequences (41, 42, 43, 44) -/

/-- R142: `SETUP(key)` from any state gives a live context with nothing pending, every member answering
`OK`; with the empty key it gives the `INIT` state. -/
def Obligations.SetupGivesAReadyContext : Prop :=
  ∀ (key : List Byte) (s : State), ∃ t rs, issueAll (setup key) s = some (t, rs) ∧
    rs = List.replicate (key.length + 2) 0x0000 ∧ t.VALID = true ∧ t.A = 0 ∧ LiveContext t ∧
    (key = [] → (∀ v : Byte, t.S.read v = v) ∧ t.I = 0 ∧ t.J = 0 ∧ t.K = 0 ∧ t.Z = 0 ∧ t.W = 1)

/-- R143, corner case: with an empty nonce and a non-empty key whose length is not a multiple of 64 bytes,
`SETUPN` leaves the same context as `SETUP`. -/
def Obligations.EmptyNonceEqualsPlainSetup : Prop :=
  ∀ (key : List Byte) (s s' : State), key ≠ [] → key.length % 64 ≠ 0 →
    ∃ t rs u us, issueAll (setup key) s = some (t, rs) ∧
      issueAll (setupWithNonce key []) s' = some (u, us) ∧ SameContext t u

/-- R144, the mismatch: three commands are issued, the third answers `LENGTH_MISMATCH`, no output byte is
written and the context is unchanged. -/
def Obligations.CryptStopsOnLengthMismatch : Prop :=
  ∀ (input : List Byte) (outlen : Nat) (s : State),
    input.length < 2 ^ 24 → outlen < 2 ^ 24 → input.length ≠ outlen →
    ∃ t, runCryptBuf input outlen s = some (t, [0x0000, 0x0000, 0x0100]) ∧
      cryptBytes [0x0000, 0x0000, 0x0100] = [] ∧ SameContext s t

/-- R145, the round trip: "for any key K and any message M, `crypt(setup(K), M)` followed by
`crypt(setup(K), result)` reproduces M exactly", from whatever states the two setups start. -/
def Obligations.CryptRoundTrip : Prop :=
  ∀ (key msg : List Byte) (s s' : State), msg.length < 2 ^ 24 →
    ∃ a as b bs c cs d ds,
      issueAll (setup key) s = some (a, as) ∧ runCryptBuf msg msg.length a = some (b, bs) ∧
      issueAll (setup key) s' = some (c, cs) ∧
      runCryptBuf (cryptBytes bs) msg.length c = some (d, ds) ∧ cryptBytes ds = msg

/-- R145, continuation: two `CRYPTBUF` on one live context return the bytes of one over the concatenation,
and leave the same context. -/
def Obligations.CryptContinuesAcrossBuffers : Prop :=
  ∀ (x y : List Byte) (s : State), s.VALID = true → (x ++ y).length < 2 ^ 24 →
    ∃ a as b bs c cs, runCryptBuf x x.length s = some (a, as) ∧
      runCryptBuf y y.length a = some (b, bs) ∧
      runCryptBuf (x ++ y) (x ++ y).length s = some (c, cs) ∧
      cryptBytes cs = cryptBytes as ++ cryptBytes bs ∧ SameContext b c

/-- R147: "the digest must be identical regardless of how the same overall byte sequence is split across
calls": on a live context, two updates end where one update of the concatenation ends, and the final
sequence then answers the same. -/
def Obligations.HashUpdateIsChunkingInvariant : Prop :=
  ∀ (x y : List Byte) (len : Byte) (s : State), s.VALID = true →
    ∃ a as b bs c cs, issueAll (hashUpdate x) s = some (a, as) ∧
      issueAll (hashUpdate y ++ hashFinal len) a = some (b, bs) ∧
      issueAll (hashUpdate (x ++ y) ++ hashFinal len) s = some (c, cs) ∧
      b = c ∧ as ++ bs = cs

/-- R149, R153: the one-shot hash and MAC, from whatever state, answer `OK` throughout: their responses are
those of the commands up to `SHUFP`, then those of exactly `len` `DRIP`s issued from the state these
leave, whose data bytes are the digest, then that of one `ZEROIZE`, which leaves the reset state. -/
def Obligations.OneShotsLeaveNothingBehind : Prop :=
  ∀ (msg key : List Byte) (len : Byte) (s : State),
    (∃ t rs m as d ds, issueAll (hashOneShot msg len) s = some (t, rs) ∧
      (∀ r ∈ rs, statusField r = 0x00) ∧ rs.length = msg.length + 4 + len.toNat + 1 ∧
      issueAll (.init :: absorb msg ++ [.abss, .absb len, .shufp]) s = some (m, as) ∧
      issueAll (List.replicate len.toNat .drip) m = some (d, ds) ∧
      ds.length = len.toNat ∧ rs = as ++ ds ++ [0x0000] ∧
      digestBytes (msg.length + 4) len rs = ds.map dataField ∧
      (∀ v : Byte, t.S.read v = 0) ∧ ∀ r, t.value r = 0) ∧
    (∃ t rs m as d ds, issueAll (macOneShot msg key len) s = some (t, rs) ∧
      (∀ r ∈ rs, statusField r = 0x00) ∧ rs.length = key.length + msg.length + 5 + len.toNat + 1 ∧
      issueAll (.init :: absorb key ++ .abss :: absorb msg ++ [.abss, .absb len, .shufp]) s =
        some (m, as) ∧
      issueAll (List.replicate len.toNat .drip) m = some (d, ds) ∧
      ds.length = len.toNat ∧ rs = as ++ ds ++ [0x0000] ∧
      digestBytes (key.length + msg.length + 5) len rs = ds.map dataField ∧
      (∀ v : Byte, t.S.read v = 0) ∧ ∀ r, t.value r = 0)

/-- R171: `RANDOM32` is four `DRIP`s, and the first byte dripped is the least significant. -/
def Obligations.RandomWordIsFourDripsLittleEndian : Prop :=
  ∀ s : State, s.VALID = true → ∃ (t : State) (b0 b1 b2 b3 : Byte) (v : Word32),
    issueAll [.drip, .drip, .drip, .drip] s =
      some (t, [(0x00 : Byte) ++ b0, (0x00 : Byte) ++ b1, (0x00 : Byte) ++ b2, (0x00 : Byte) ++ b3]) ∧
    drawRandom32 s = some (t, .word v) ∧
    v.toNat = b0.toNat + 256 * b1.toNat + 65536 * b2.toNat + 16777216 * b3.toNat

/-- R172: `RANDOM32U(bound)` returns 0 without issuing a command when `bound < 2`. Otherwise it draws: a
word that is not below `2^32 mod bound` is returned modulo `bound`, a word below it is rejected and
the next one drawn; without a context the first `DRIP`'s `NOT_INITIALISED` is what the host gets; and
any value returned is below `bound`. The bound on the draws is the model's (log 9). -/
def Obligations.UniformSamplesAreBelowTheBound : Prop :=
  ∀ (fuel : Nat) (bound : Word32) (s : State),
    (bound.toNat < 2 → random32Uniform fuel bound s = some (s, .value 0)) ∧
    (2 ≤ bound.toNat → (uniformMin bound).toNat = 2 ^ 32 % bound.toNat ∧
      random32Uniform 0 bound s = some (s, .drawsUsedUp) ∧
      (s.VALID = true → ∃ t r, drawRandom32 s = some (t, .word r) ∧
        (2 ^ 32 % bound.toNat ≤ r.toNat → ∃ v, random32Uniform (fuel + 1) bound s = some (t, .value v) ∧
          v.toNat = r.toNat % bound.toNat) ∧
        (r.toNat < 2 ^ 32 % bound.toNat →
          random32Uniform (fuel + 1) bound s = random32Uniform fuel bound t)) ∧
      (s.VALID = false → drawRandom32 s = some (s.receive 0x0300, .refused 0x0300) ∧
        random32Uniform (fuel + 1) bound s = some (s.receive 0x0300, .refused 0x0300)) ∧
      ∀ t v, random32Uniform fuel bound s = some (t, .value v) → v.toNat < bound.toNat)

/-- R187: `COMPARE(a, b)` answers `LENGTH_MISMATCH` at its third command when the lengths differ; when they
agree its last response is 0x0000 exactly when the buffers are equal and 0x0001 otherwise; the context
is untouched, and none is needed. -/
def Obligations.CompareTellsEqualBuffers : Prop :=
  ∀ (a b : List Byte) (s : State), a.length < 2 ^ 24 → b.length < 2 ^ 24 →
    ∃ t rs, runCompare a b s = some (t, rs) ∧ SameContext s t ∧
      (a.length ≠ b.length → rs = [0x0000, 0x0000, 0x0100]) ∧
      (a.length = b.length → rs.getLast? = some (if a = b then 0x0000 else 0x0001))

/-! ### The command port (30_encoding.md R70, R71; 70_reset_and_hazards.md) -/

/-- R71(a), (c), (d), (e), at an edge without reset: a word is accepted only when the port is idle, and an
idle port offered none does nothing; a port executing a word is not ready, keeps that word, and when
it responds it is with the response that word gets; until the response has been transferred the
host's command inputs change nothing; a response not taken is held, and nothing else happens; a
response taken is transferred as it stood. That the engine's state has not changed yet at acceptance
is the model's choice (log 8). -/
def Obligations.PortHoldsOneCommandAtATime : Prop :=
  ∀ (p : Port) (x : PortInputs), x.rst = false →
    (p.cmd_ready = true → x.cmd_valid = true →
      (Port.edge x p).cmd_ready = false ∧ (Port.edge x p).engine = p.engine ∧
        ∃ n, (Port.edge x p).phase = .executing x.cmd_word n) ∧
    (p.cmd_ready = true → x.cmd_valid = false → Port.edge x p = p) ∧
    (∀ (w : Word32) (n : Nat), p.phase = .executing w n →
      (Port.edge x p).cmd_ready = false ∧
      ((∃ m, (Port.edge x p).phase = .executing w m ∧ (Port.edge x p).engine = p.engine) ∨
       ∃ (r : Word16) (t : State), (Port.edge x p).phase = .responding w r ∧
        acceptCommand w p.engine = .next t ∧ t.responses = p.engine.responses ++ [r] ∧
        (Port.edge x p).engine.receive r = t)) ∧
    (p.cmd_ready = false → ∀ (v : Bool) (w : Word32),
      Port.edge { x with cmd_valid := v, cmd_word := w } p = Port.edge x p) ∧
    (p.rsp_valid = true → x.rsp_ready = false → Port.edge x p = p) ∧
    (p.rsp_valid = true → x.rsp_ready = true → ∃ r, p.rsp_word = some r ∧
      Port.edge x p = { engine := p.engine.receive r, phase := .idle })

/-- R230: at an edge with `rst` the engine enters the reset state whatever the port was doing, the command
in progress and a response not yet transferred are gone, `rsp_valid` is 0 and `cmd_ready` is 1. Two
points are the model's choice: that a response with `rsp_ready` 1 at that edge is dropped (log 16),
and that `cmd_ready` is 1 already while `rst` is held (log 17). -/
def Obligations.PortResetAbandonsEverything : Prop :=
  ∀ (p : Port) (x : PortInputs), x.rst = true →
    (∀ v : Byte, (Port.edge x p).engine.S.read v = 0) ∧ (∀ r, (Port.edge x p).engine.value r = 0) ∧
    (Port.edge x p).engine.responses = p.engine.responses ∧
    (Port.edge x p).rsp_valid = false ∧ (Port.edge x p).cmd_ready = true

/-- R250: an accepted command completes and presents its own response after a finite number of cycles, at
least one, whatever the state, the word and the host's other signals, unless it is reset. R250 says finite;
that it is at least one is `LATENCY`'s range (spec/92_eei_decisions.md section 4), and that the one
number serves for every later input is the model's choice (log 8). -/
def Obligations.PortAnswersEveryAcceptedWord : Prop :=
  ∀ (p : Port) (x : PortInputs), p.cmd_ready = true → x.rst = false → x.cmd_valid = true →
    ∃ (n : Nat) (r : Word16) (t : State), 1 ≤ n ∧
      acceptCommand x.cmd_word p.engine = .next t ∧ t.responses = p.engine.responses ++ [r] ∧
      ∀ xs : List PortInputs, xs.length = n → (∀ y ∈ xs, y.rst = false) →
        (Port.edges xs (Port.edge x p)).rsp_valid = true ∧
        (Port.edges xs (Port.edge x p)).phase = .responding x.cmd_word r

/-- R71, last sentence: at every series of edges the port does what the step does, applied to the host's
moves in the order in which they complete; the handshake adds no behaviour. The two agree but for the
scratch registers, which R29 leaves open. That a reset edge transfers nothing, so that a response or a
command word met by it is no move, is the model's choice (logs 16 and 17). -/
def Obligations.PortRefinesTheStep : Prop :=
  ∀ (xs : List PortInputs) (p : Port) (s : State), s.host = [] → p.agrees s →
    ∃ t, playMoves (Port.completedMoves xs p) s = some t ∧ t.host = [] ∧ (Port.edges xs p).agrees t
end

