-- ==== Sys2Proof/Laws/Memory.lean ====
section
/-! SUPPORT. The laws of the permutation array: a read after a write, the canonical form kept by every
operation, and what an exchange leaves. -/

namespace Sys2Proof.Machine

/-! ### Reading the list -/

theorem byteAt_unlist (m : Memory) (a b : Nat) :
    Memory.byteAt (Memory.unlist m a) b = if b = a then unlistedByte else Memory.byteAt m b := by
  induction m with
  | nil => simp [Memory.unlist, Memory.byteAt]
  | cons c m ih =>
    obtain ⟨k, v⟩ := c
    simp only [Memory.unlist, Memory.byteAt]
    split
    · subst_vars; rw [ih]; split <;> simp_all [eq_comm]
    · simp only [Memory.byteAt, ih]; split <;> split <;> simp_all

theorem byteAt_enlist (m : Memory) (a b : Nat) (v : Byte) :
    Memory.byteAt (Memory.enlist m a v) b = if b = a then v else Memory.byteAt m b := by
  induction m with
  | nil => simp [Memory.enlist, Memory.byteAt, eq_comm]
  | cons c m ih =>
    obtain ⟨k, u⟩ := c
    simp only [Memory.enlist, Memory.byteAt]
    split
    · simp only [Memory.byteAt, ih]; split <;> split <;> simp_all
    · split <;> simp only [Memory.byteAt] <;> by_cases h : b = a <;> simp_all [Ne.symm]

/-- A read after a write: the byte written at its own entry, every other entry as before. -/
theorem read_write (m : Memory) (x v a : Byte) :
    (m.write x v).read a = if a = x then v else m.read a := by
  unfold Memory.write Memory.read
  split
  · rename_i h; rw [byteAt_unlist]; simp only [BitVec.toNat_inj]; rw [h]
  · rw [byteAt_enlist]; simp only [BitVec.toNat_inj]

/-- An exchange, entry by entry (spec/40_permutation_core.md R101). -/
theorem read_exchange (m : Memory) (x y a : Byte) :
    (m.exchange x y).read a = if a = x then m.read y else if a = y then m.read x else m.read a := by
  simp only [Memory.exchange, read_write]
  split <;> split <;> simp_all

theorem byteAt_filter_map (f : Byte → Byte) (vs : List Nat) (a : Nat) :
    Memory.byteAt ((vs.map fun v => (v, f (BitVec.ofNat 8 v))).filter fun c => c.2 != unlistedByte) a =
      if a ∈ vs then f (BitVec.ofNat 8 a) else unlistedByte := by
  induction vs with
  | nil => simp [Memory.byteAt]
  | cons v vs ih =>
    simp only [List.map_cons, List.filter_cons]
    split
    · simp only [Memory.byteAt, ih]; by_cases h : v = a
      · subst h; simp
      · simp [h, Ne.symm h]
    · rename_i hz
      have hz : f (BitVec.ofNat 8 v) = unlistedByte := by simpa using hz
      rw [ih]; by_cases h : a = v
      · subst h; simp [hz]
      · simp [h]

/-- A fill reads at every entry as its function says. -/
theorem read_fill (f : Byte → Byte) (a : Byte) : (Memory.fill f).read a = f a := by
  unfold Memory.fill Memory.read
  rw [byteAt_filter_map, if_pos (List.mem_range.2 a.isLt), BitVec.ofNat_toNat, BitVec.setWidth_eq]

@[simp] theorem fill_zero : (Memory.fill fun _ => 0x00) = [] := by
  simp [Memory.fill, unlistedByte]

/-! ### The canonical form -/

/-- The canonical form as a proposition. -/
theorem wf_iff (m : Memory) :
    m.wf = true ↔ m.Pairwise (fun c d => c.1 < d.1) ∧ ∀ c ∈ m, c.1 < 256 ∧ c.2 ≠ unlistedByte := by
  simp [Memory.wf]

theorem mem_unlist {m : Memory} {a : Nat} {c : Host.Cell} (h : c ∈ Memory.unlist m a) : c ∈ m := by
  induction m with
  | nil => simp [Memory.unlist] at h
  | cons d m ih =>
    obtain ⟨k, v⟩ := d
    simp only [Memory.unlist] at h
    split at h
    · exact List.mem_cons_of_mem _ (ih h)
    · rcases List.mem_cons.1 h with h | h
      · simp [h]
      · exact List.mem_cons_of_mem _ (ih h)

theorem mem_enlist {m : Memory} {a : Nat} {v : Byte} {c : Host.Cell} (h : c ∈ Memory.enlist m a v) :
    c = (a, v) ∨ c ∈ m := by
  induction m with
  | nil => simpa [Memory.enlist] using h
  | cons d m ih =>
    obtain ⟨k, u⟩ := d
    simp only [Memory.enlist] at h
    split at h
    · rcases List.mem_cons.1 h with h | h
      · simp [h]
      · rcases ih h with h | h <;> simp [h]
    · split at h <;> simp at h ⊢ <;> tauto

theorem pairwise_unlist {m : Memory} (h : m.Pairwise fun c d => c.1 < d.1) (a : Nat) :
    (Memory.unlist m a).Pairwise fun c d => c.1 < d.1 := by
  induction m with
  | nil => simp [Memory.unlist]
  | cons d m ih =>
    obtain ⟨k, v⟩ := d
    have hc := List.pairwise_cons.1 h
    simp only [Memory.unlist]
    split
    · exact ih hc.2
    · exact List.pairwise_cons.2 ⟨fun c hm => hc.1 c (mem_unlist hm), ih hc.2⟩

theorem pairwise_enlist {m : Memory} (h : m.Pairwise fun c d => c.1 < d.1) (a : Nat) (v : Byte) :
    (Memory.enlist m a v).Pairwise fun c d => c.1 < d.1 := by
  induction m with
  | nil => simp [Memory.enlist]
  | cons d m ih =>
    obtain ⟨k, u⟩ := d
    have hc := List.pairwise_cons.1 h
    simp only [Memory.enlist]
    split
    · rename_i hlt
      refine List.pairwise_cons.2 ⟨fun c hm => ?_, ih hc.2⟩
      rcases mem_enlist hm with rfl | hm
      · exact hlt
      · exact hc.1 c hm
    · split
      · rename_i heq
        exact List.pairwise_cons.2 ⟨fun c hm => by have := hc.1 c hm; simp_all, hc.2⟩
      · rename_i h1 h2
        refine List.pairwise_cons.2 ⟨fun c hm => ?_, h⟩
        rcases List.mem_cons.1 hm with rfl | hm
        · show a < k; omega
        · have := hc.1 c hm; simp at this ⊢; omega

/-- A write keeps the canonical form. -/
theorem wf_write {m : Memory} (h : m.wf = true) (x v : Byte) : (m.write x v).wf = true := by
  rw [wf_iff] at h ⊢
  unfold Memory.write
  split
  · exact ⟨pairwise_unlist h.1 _, fun c hc => h.2 c (mem_unlist hc)⟩
  · rename_i hv
    refine ⟨pairwise_enlist h.1 _ _, fun c hc => ?_⟩
    rcases mem_enlist hc with rfl | hc
    · exact ⟨x.isLt, hv⟩
    · exact h.2 c hc

/-- An exchange keeps the canonical form. -/
theorem wf_exchange {m : Memory} (h : m.wf = true) (x y : Byte) : (m.exchange x y).wf = true :=
  wf_write (wf_write h _ _) _ _

/-- A fill is in the canonical form. -/
theorem wf_fill (f : Byte → Byte) : (Memory.fill f).wf = true := by
  rw [wf_iff]
  constructor
  · unfold Memory.fill
    refine List.Pairwise.filter _ (List.pairwise_map.2 ?_)
    exact List.pairwise_lt_range
  · intro c hc
    simp only [Memory.fill, List.mem_filter, List.mem_map, List.mem_range] at hc
    obtain ⟨⟨v, hv, rfl⟩, hz⟩ := hc
    exact ⟨hv, by simpa using hz⟩

theorem byteAt_of_all_above {m : Memory} {a : Nat} (h : ∀ c ∈ m, a < c.1) :
    Memory.byteAt m a = unlistedByte := by
  induction m with
  | nil => rfl
  | cons c m ih =>
    have hc := h c (by simp)
    rw [Memory.byteAt, if_neg (by omega)]
    exact ih fun d hd => h d (by simp [hd])

theorem byteAt_ext {m n : Memory} (hm : m.wf = true) (hn : n.wf = true)
    (h : ∀ a, Memory.byteAt m a = Memory.byteAt n a) : m = n := by
  rw [wf_iff] at hm hn
  induction m generalizing n with
  | nil =>
    cases n with
    | nil => rfl
    | cons d n => exact absurd (by simpa [Memory.byteAt] using (h d.1).symm) (hn.2 d (by simp)).2
  | cons c m ih =>
    cases n with
    | nil => exact absurd (by simpa [Memory.byteAt] using h c.1) (hm.2 c (by simp)).2
    | cons d n =>
      have hc := List.pairwise_cons.1 hm.1
      have hd := List.pairwise_cons.1 hn.1
      have hkey : c.1 = d.1 := by
        rcases Nat.lt_trichotomy c.1 d.1 with hlt | heq | hlt
        · refine absurd ?_ (hm.2 c (by simp)).2
          have := h c.1
          rw [byteAt_of_all_above (m := d :: n)] at this
          · simpa [Memory.byteAt] using this
          · intro e he
            rcases List.mem_cons.1 he with rfl | he
            · exact hlt
            · exact Nat.lt_trans hlt (hd.1 e he)
        · exact heq
        · refine absurd ?_ (hn.2 d (by simp)).2
          have := h d.1
          rw [byteAt_of_all_above (m := c :: m)] at this
          · simpa [Memory.byteAt] using this.symm
          · intro e he
            rcases List.mem_cons.1 he with rfl | he
            · exact hlt
            · exact Nat.lt_trans hlt (hc.1 e he)
      have hval : c.2 = d.2 := by simpa [Memory.byteAt, hkey] using h c.1
      have htail : m = n := by
        refine ih ⟨hc.2, fun e he => hm.2 e (by simp [he])⟩ ⟨hd.2, fun e he => hn.2 e (by simp [he])⟩ fun a => ?_
        by_cases ha : c.1 = a
        · subst ha
          rw [byteAt_of_all_above hc.1, byteAt_of_all_above (hkey ▸ hd.1)]
        · have := h a
          rwa [Memory.byteAt, Memory.byteAt, if_neg ha, if_neg (hkey ▸ ha)] at this
      rw [htail, Prod.ext hkey hval]

theorem byteAt_of_not_mem {m : Memory} (h : ∀ c ∈ m, c.1 < 256 ∧ c.2 ≠ unlistedByte) {a : Nat}
    (ha : ¬ a < 256) : Memory.byteAt m a = unlistedByte := by
  induction m with
  | nil => rfl
  | cons c m ih =>
    have hc := (h c (by simp)).1
    rw [Memory.byteAt, if_neg (by omega)]
    exact ih fun d hd => h d (by simp [hd])

/-- Memories in the canonical form that read alike are equal data. -/
theorem wf_ext {m n : Memory} (hm : m.wf = true) (hn : n.wf = true) (h : ∀ a, m.read a = n.read a) :
    m = n := by
  refine byteAt_ext hm hn fun a => ?_
  by_cases ha : a < 256
  · have := h (BitVec.ofNat 8 a)
    simpa [Memory.read, Nat.mod_eq_of_lt ha] using this
  · rw [byteAt_of_not_mem ((wf_iff m).1 hm).2 ha, byteAt_of_not_mem ((wf_iff n).1 hn).2 ha]

end Sys2Proof.Machine
end

