-- ==== Sys2Proof/Laws/State.lean ====
section
/-! SUPPORT. One lemma for each field and each update of the state, so that no proof unfolds a record
update, and what a reset and a clear leave. -/

namespace Sys2Proof.Machine

variable (s : State)

/-! `State.setS` -/
@[simp] theorem setS_S (m : Memory) : (s.setS m).S = m := rfl
@[simp] theorem setS_I (m : Memory) : (s.setS m).I = s.I := rfl
@[simp] theorem setS_J (m : Memory) : (s.setS m).J = s.J := rfl
@[simp] theorem setS_K (m : Memory) : (s.setS m).K = s.K := rfl
@[simp] theorem setS_Z (m : Memory) : (s.setS m).Z = s.Z := rfl
@[simp] theorem setS_A (m : Memory) : (s.setS m).A = s.A := rfl
@[simp] theorem setS_W (m : Memory) : (s.setS m).W = s.W := rfl
@[simp] theorem setS_T1 (m : Memory) : (s.setS m).T1 = s.T1 := rfl
@[simp] theorem setS_T2 (m : Memory) : (s.setS m).T2 = s.T2 := rfl
@[simp] theorem setS_VALID (m : Memory) : (s.setS m).VALID = s.VALID := rfl
@[simp] theorem setS_LA (m : Memory) : (s.setS m).LA = s.LA := rfl
@[simp] theorem setS_LB (m : Memory) : (s.setS m).LB = s.LB := rfl
@[simp] theorem setS_CACC (m : Memory) : (s.setS m).CACC = s.CACC := rfl
@[simp] theorem setS_scratchDraws (m : Memory) : (s.setS m).scratchDraws = s.scratchDraws := rfl
@[simp] theorem setS_host (m : Memory) : (s.setS m).host = s.host := rfl
@[simp] theorem setS_responses (m : Memory) : (s.setS m).responses = s.responses := rfl

/-! `State.setWalk` -/
@[simp] theorem setWalk_S (i j k : Byte) : (s.setWalk i j k).S = s.S := rfl
@[simp] theorem setWalk_I (i j k : Byte) : (s.setWalk i j k).I = i := rfl
@[simp] theorem setWalk_J (i j k : Byte) : (s.setWalk i j k).J = j := rfl
@[simp] theorem setWalk_K (i j k : Byte) : (s.setWalk i j k).K = k := rfl
@[simp] theorem setWalk_Z (i j k : Byte) : (s.setWalk i j k).Z = s.Z := rfl
@[simp] theorem setWalk_A (i j k : Byte) : (s.setWalk i j k).A = s.A := rfl
@[simp] theorem setWalk_W (i j k : Byte) : (s.setWalk i j k).W = s.W := rfl
@[simp] theorem setWalk_T1 (i j k : Byte) : (s.setWalk i j k).T1 = s.T1 := rfl
@[simp] theorem setWalk_T2 (i j k : Byte) : (s.setWalk i j k).T2 = s.T2 := rfl
@[simp] theorem setWalk_VALID (i j k : Byte) : (s.setWalk i j k).VALID = s.VALID := rfl
@[simp] theorem setWalk_LA (i j k : Byte) : (s.setWalk i j k).LA = s.LA := rfl
@[simp] theorem setWalk_LB (i j k : Byte) : (s.setWalk i j k).LB = s.LB := rfl
@[simp] theorem setWalk_CACC (i j k : Byte) : (s.setWalk i j k).CACC = s.CACC := rfl
@[simp] theorem setWalk_scratchDraws (i j k : Byte) : (s.setWalk i j k).scratchDraws = s.scratchDraws := rfl
@[simp] theorem setWalk_host (i j k : Byte) : (s.setWalk i j k).host = s.host := rfl
@[simp] theorem setWalk_responses (i j k : Byte) : (s.setWalk i j k).responses = s.responses := rfl

/-! `State.setZ` -/
@[simp] theorem setZ_S (v : Byte) : (s.setZ v).S = s.S := rfl
@[simp] theorem setZ_I (v : Byte) : (s.setZ v).I = s.I := rfl
@[simp] theorem setZ_J (v : Byte) : (s.setZ v).J = s.J := rfl
@[simp] theorem setZ_K (v : Byte) : (s.setZ v).K = s.K := rfl
@[simp] theorem setZ_Z (v : Byte) : (s.setZ v).Z = v := rfl
@[simp] theorem setZ_A (v : Byte) : (s.setZ v).A = s.A := rfl
@[simp] theorem setZ_W (v : Byte) : (s.setZ v).W = s.W := rfl
@[simp] theorem setZ_T1 (v : Byte) : (s.setZ v).T1 = s.T1 := rfl
@[simp] theorem setZ_T2 (v : Byte) : (s.setZ v).T2 = s.T2 := rfl
@[simp] theorem setZ_VALID (v : Byte) : (s.setZ v).VALID = s.VALID := rfl
@[simp] theorem setZ_LA (v : Byte) : (s.setZ v).LA = s.LA := rfl
@[simp] theorem setZ_LB (v : Byte) : (s.setZ v).LB = s.LB := rfl
@[simp] theorem setZ_CACC (v : Byte) : (s.setZ v).CACC = s.CACC := rfl
@[simp] theorem setZ_scratchDraws (v : Byte) : (s.setZ v).scratchDraws = s.scratchDraws := rfl
@[simp] theorem setZ_host (v : Byte) : (s.setZ v).host = s.host := rfl
@[simp] theorem setZ_responses (v : Byte) : (s.setZ v).responses = s.responses := rfl

/-! `State.setA` -/
@[simp] theorem setA_S (v : Byte) : (s.setA v).S = s.S := rfl
@[simp] theorem setA_I (v : Byte) : (s.setA v).I = s.I := rfl
@[simp] theorem setA_J (v : Byte) : (s.setA v).J = s.J := rfl
@[simp] theorem setA_K (v : Byte) : (s.setA v).K = s.K := rfl
@[simp] theorem setA_Z (v : Byte) : (s.setA v).Z = s.Z := rfl
@[simp] theorem setA_A (v : Byte) : (s.setA v).A = v := rfl
@[simp] theorem setA_W (v : Byte) : (s.setA v).W = s.W := rfl
@[simp] theorem setA_T1 (v : Byte) : (s.setA v).T1 = s.T1 := rfl
@[simp] theorem setA_T2 (v : Byte) : (s.setA v).T2 = s.T2 := rfl
@[simp] theorem setA_VALID (v : Byte) : (s.setA v).VALID = s.VALID := rfl
@[simp] theorem setA_LA (v : Byte) : (s.setA v).LA = s.LA := rfl
@[simp] theorem setA_LB (v : Byte) : (s.setA v).LB = s.LB := rfl
@[simp] theorem setA_CACC (v : Byte) : (s.setA v).CACC = s.CACC := rfl
@[simp] theorem setA_scratchDraws (v : Byte) : (s.setA v).scratchDraws = s.scratchDraws := rfl
@[simp] theorem setA_host (v : Byte) : (s.setA v).host = s.host := rfl
@[simp] theorem setA_responses (v : Byte) : (s.setA v).responses = s.responses := rfl

/-! `State.setW` -/
@[simp] theorem setW_S (v : Byte) : (s.setW v).S = s.S := rfl
@[simp] theorem setW_I (v : Byte) : (s.setW v).I = s.I := rfl
@[simp] theorem setW_J (v : Byte) : (s.setW v).J = s.J := rfl
@[simp] theorem setW_K (v : Byte) : (s.setW v).K = s.K := rfl
@[simp] theorem setW_Z (v : Byte) : (s.setW v).Z = s.Z := rfl
@[simp] theorem setW_A (v : Byte) : (s.setW v).A = s.A := rfl
@[simp] theorem setW_W (v : Byte) : (s.setW v).W = v := rfl
@[simp] theorem setW_T1 (v : Byte) : (s.setW v).T1 = s.T1 := rfl
@[simp] theorem setW_T2 (v : Byte) : (s.setW v).T2 = s.T2 := rfl
@[simp] theorem setW_VALID (v : Byte) : (s.setW v).VALID = s.VALID := rfl
@[simp] theorem setW_LA (v : Byte) : (s.setW v).LA = s.LA := rfl
@[simp] theorem setW_LB (v : Byte) : (s.setW v).LB = s.LB := rfl
@[simp] theorem setW_CACC (v : Byte) : (s.setW v).CACC = s.CACC := rfl
@[simp] theorem setW_scratchDraws (v : Byte) : (s.setW v).scratchDraws = s.scratchDraws := rfl
@[simp] theorem setW_host (v : Byte) : (s.setW v).host = s.host := rfl
@[simp] theorem setW_responses (v : Byte) : (s.setW v).responses = s.responses := rfl

/-! `State.setScratch` -/
@[simp] theorem setScratch_S (t1 t2 : Byte) : (s.setScratch t1 t2).S = s.S := rfl
@[simp] theorem setScratch_I (t1 t2 : Byte) : (s.setScratch t1 t2).I = s.I := rfl
@[simp] theorem setScratch_J (t1 t2 : Byte) : (s.setScratch t1 t2).J = s.J := rfl
@[simp] theorem setScratch_K (t1 t2 : Byte) : (s.setScratch t1 t2).K = s.K := rfl
@[simp] theorem setScratch_Z (t1 t2 : Byte) : (s.setScratch t1 t2).Z = s.Z := rfl
@[simp] theorem setScratch_A (t1 t2 : Byte) : (s.setScratch t1 t2).A = s.A := rfl
@[simp] theorem setScratch_W (t1 t2 : Byte) : (s.setScratch t1 t2).W = s.W := rfl
@[simp] theorem setScratch_T1 (t1 t2 : Byte) : (s.setScratch t1 t2).T1 = t1 := rfl
@[simp] theorem setScratch_T2 (t1 t2 : Byte) : (s.setScratch t1 t2).T2 = t2 := rfl
@[simp] theorem setScratch_VALID (t1 t2 : Byte) : (s.setScratch t1 t2).VALID = s.VALID := rfl
@[simp] theorem setScratch_LA (t1 t2 : Byte) : (s.setScratch t1 t2).LA = s.LA := rfl
@[simp] theorem setScratch_LB (t1 t2 : Byte) : (s.setScratch t1 t2).LB = s.LB := rfl
@[simp] theorem setScratch_CACC (t1 t2 : Byte) : (s.setScratch t1 t2).CACC = s.CACC := rfl
@[simp] theorem setScratch_scratchDraws (t1 t2 : Byte) : (s.setScratch t1 t2).scratchDraws = s.scratchDraws := rfl
@[simp] theorem setScratch_host (t1 t2 : Byte) : (s.setScratch t1 t2).host = s.host := rfl
@[simp] theorem setScratch_responses (t1 t2 : Byte) : (s.setScratch t1 t2).responses = s.responses := rfl

/-! `State.drawScratch` -/
@[simp] theorem drawScratch_S : s.drawScratch.S = s.S := rfl
@[simp] theorem drawScratch_I : s.drawScratch.I = s.I := rfl
@[simp] theorem drawScratch_J : s.drawScratch.J = s.J := rfl
@[simp] theorem drawScratch_K : s.drawScratch.K = s.K := rfl
@[simp] theorem drawScratch_Z : s.drawScratch.Z = s.Z := rfl
@[simp] theorem drawScratch_A : s.drawScratch.A = s.A := rfl
@[simp] theorem drawScratch_W : s.drawScratch.W = s.W := rfl
@[simp] theorem drawScratch_T1 : s.drawScratch.T1 = Config.scratch1 s.scratchDraws := rfl
@[simp] theorem drawScratch_T2 : s.drawScratch.T2 = Config.scratch2 s.scratchDraws := rfl
@[simp] theorem drawScratch_VALID : s.drawScratch.VALID = s.VALID := rfl
@[simp] theorem drawScratch_LA : s.drawScratch.LA = s.LA := rfl
@[simp] theorem drawScratch_LB : s.drawScratch.LB = s.LB := rfl
@[simp] theorem drawScratch_CACC : s.drawScratch.CACC = s.CACC := rfl
@[simp] theorem drawScratch_scratchDraws : s.drawScratch.scratchDraws = s.scratchDraws + 1 := rfl
@[simp] theorem drawScratch_host : s.drawScratch.host = s.host := rfl
@[simp] theorem drawScratch_responses : s.drawScratch.responses = s.responses := rfl

/-! `State.setVALID` -/
@[simp] theorem setVALID_S (v : Bool) : (s.setVALID v).S = s.S := rfl
@[simp] theorem setVALID_I (v : Bool) : (s.setVALID v).I = s.I := rfl
@[simp] theorem setVALID_J (v : Bool) : (s.setVALID v).J = s.J := rfl
@[simp] theorem setVALID_K (v : Bool) : (s.setVALID v).K = s.K := rfl
@[simp] theorem setVALID_Z (v : Bool) : (s.setVALID v).Z = s.Z := rfl
@[simp] theorem setVALID_A (v : Bool) : (s.setVALID v).A = s.A := rfl
@[simp] theorem setVALID_W (v : Bool) : (s.setVALID v).W = s.W := rfl
@[simp] theorem setVALID_T1 (v : Bool) : (s.setVALID v).T1 = s.T1 := rfl
@[simp] theorem setVALID_T2 (v : Bool) : (s.setVALID v).T2 = s.T2 := rfl
@[simp] theorem setVALID_VALID (v : Bool) : (s.setVALID v).VALID = v := rfl
@[simp] theorem setVALID_LA (v : Bool) : (s.setVALID v).LA = s.LA := rfl
@[simp] theorem setVALID_LB (v : Bool) : (s.setVALID v).LB = s.LB := rfl
@[simp] theorem setVALID_CACC (v : Bool) : (s.setVALID v).CACC = s.CACC := rfl
@[simp] theorem setVALID_scratchDraws (v : Bool) : (s.setVALID v).scratchDraws = s.scratchDraws := rfl
@[simp] theorem setVALID_host (v : Bool) : (s.setVALID v).host = s.host := rfl
@[simp] theorem setVALID_responses (v : Bool) : (s.setVALID v).responses = s.responses := rfl

/-! `State.setLA` -/
@[simp] theorem setLA_S (len : Word24) : (s.setLA len).S = s.S := rfl
@[simp] theorem setLA_I (len : Word24) : (s.setLA len).I = s.I := rfl
@[simp] theorem setLA_J (len : Word24) : (s.setLA len).J = s.J := rfl
@[simp] theorem setLA_K (len : Word24) : (s.setLA len).K = s.K := rfl
@[simp] theorem setLA_Z (len : Word24) : (s.setLA len).Z = s.Z := rfl
@[simp] theorem setLA_A (len : Word24) : (s.setLA len).A = s.A := rfl
@[simp] theorem setLA_W (len : Word24) : (s.setLA len).W = s.W := rfl
@[simp] theorem setLA_T1 (len : Word24) : (s.setLA len).T1 = s.T1 := rfl
@[simp] theorem setLA_T2 (len : Word24) : (s.setLA len).T2 = s.T2 := rfl
@[simp] theorem setLA_VALID (len : Word24) : (s.setLA len).VALID = s.VALID := rfl
@[simp] theorem setLA_LA (len : Word24) : (s.setLA len).LA = len := rfl
@[simp] theorem setLA_LB (len : Word24) : (s.setLA len).LB = s.LB := rfl
@[simp] theorem setLA_CACC (len : Word24) : (s.setLA len).CACC = s.CACC := rfl
@[simp] theorem setLA_scratchDraws (len : Word24) : (s.setLA len).scratchDraws = s.scratchDraws := rfl
@[simp] theorem setLA_host (len : Word24) : (s.setLA len).host = s.host := rfl
@[simp] theorem setLA_responses (len : Word24) : (s.setLA len).responses = s.responses := rfl

/-! `State.setLB` -/
@[simp] theorem setLB_S (len : Word24) : (s.setLB len).S = s.S := rfl
@[simp] theorem setLB_I (len : Word24) : (s.setLB len).I = s.I := rfl
@[simp] theorem setLB_J (len : Word24) : (s.setLB len).J = s.J := rfl
@[simp] theorem setLB_K (len : Word24) : (s.setLB len).K = s.K := rfl
@[simp] theorem setLB_Z (len : Word24) : (s.setLB len).Z = s.Z := rfl
@[simp] theorem setLB_A (len : Word24) : (s.setLB len).A = s.A := rfl
@[simp] theorem setLB_W (len : Word24) : (s.setLB len).W = s.W := rfl
@[simp] theorem setLB_T1 (len : Word24) : (s.setLB len).T1 = s.T1 := rfl
@[simp] theorem setLB_T2 (len : Word24) : (s.setLB len).T2 = s.T2 := rfl
@[simp] theorem setLB_VALID (len : Word24) : (s.setLB len).VALID = s.VALID := rfl
@[simp] theorem setLB_LA (len : Word24) : (s.setLB len).LA = s.LA := rfl
@[simp] theorem setLB_LB (len : Word24) : (s.setLB len).LB = len := rfl
@[simp] theorem setLB_CACC (len : Word24) : (s.setLB len).CACC = s.CACC := rfl
@[simp] theorem setLB_scratchDraws (len : Word24) : (s.setLB len).scratchDraws = s.scratchDraws := rfl
@[simp] theorem setLB_host (len : Word24) : (s.setLB len).host = s.host := rfl
@[simp] theorem setLB_responses (len : Word24) : (s.setLB len).responses = s.responses := rfl

/-! `State.setCACC` -/
@[simp] theorem setCACC_S (v : Byte) : (s.setCACC v).S = s.S := rfl
@[simp] theorem setCACC_I (v : Byte) : (s.setCACC v).I = s.I := rfl
@[simp] theorem setCACC_J (v : Byte) : (s.setCACC v).J = s.J := rfl
@[simp] theorem setCACC_K (v : Byte) : (s.setCACC v).K = s.K := rfl
@[simp] theorem setCACC_Z (v : Byte) : (s.setCACC v).Z = s.Z := rfl
@[simp] theorem setCACC_A (v : Byte) : (s.setCACC v).A = s.A := rfl
@[simp] theorem setCACC_W (v : Byte) : (s.setCACC v).W = s.W := rfl
@[simp] theorem setCACC_T1 (v : Byte) : (s.setCACC v).T1 = s.T1 := rfl
@[simp] theorem setCACC_T2 (v : Byte) : (s.setCACC v).T2 = s.T2 := rfl
@[simp] theorem setCACC_VALID (v : Byte) : (s.setCACC v).VALID = s.VALID := rfl
@[simp] theorem setCACC_LA (v : Byte) : (s.setCACC v).LA = s.LA := rfl
@[simp] theorem setCACC_LB (v : Byte) : (s.setCACC v).LB = s.LB := rfl
@[simp] theorem setCACC_CACC (v : Byte) : (s.setCACC v).CACC = v := rfl
@[simp] theorem setCACC_scratchDraws (v : Byte) : (s.setCACC v).scratchDraws = s.scratchDraws := rfl
@[simp] theorem setCACC_host (v : Byte) : (s.setCACC v).host = s.host := rfl
@[simp] theorem setCACC_responses (v : Byte) : (s.setCACC v).responses = s.responses := rfl

/-! `State.setHost` -/
@[simp] theorem setHost_S (h : List HostMove) : (s.setHost h).S = s.S := rfl
@[simp] theorem setHost_I (h : List HostMove) : (s.setHost h).I = s.I := rfl
@[simp] theorem setHost_J (h : List HostMove) : (s.setHost h).J = s.J := rfl
@[simp] theorem setHost_K (h : List HostMove) : (s.setHost h).K = s.K := rfl
@[simp] theorem setHost_Z (h : List HostMove) : (s.setHost h).Z = s.Z := rfl
@[simp] theorem setHost_A (h : List HostMove) : (s.setHost h).A = s.A := rfl
@[simp] theorem setHost_W (h : List HostMove) : (s.setHost h).W = s.W := rfl
@[simp] theorem setHost_T1 (h : List HostMove) : (s.setHost h).T1 = s.T1 := rfl
@[simp] theorem setHost_T2 (h : List HostMove) : (s.setHost h).T2 = s.T2 := rfl
@[simp] theorem setHost_VALID (h : List HostMove) : (s.setHost h).VALID = s.VALID := rfl
@[simp] theorem setHost_LA (h : List HostMove) : (s.setHost h).LA = s.LA := rfl
@[simp] theorem setHost_LB (h : List HostMove) : (s.setHost h).LB = s.LB := rfl
@[simp] theorem setHost_CACC (h : List HostMove) : (s.setHost h).CACC = s.CACC := rfl
@[simp] theorem setHost_scratchDraws (h : List HostMove) : (s.setHost h).scratchDraws = s.scratchDraws := rfl
@[simp] theorem setHost_host (h : List HostMove) : (s.setHost h).host = h := rfl
@[simp] theorem setHost_responses (h : List HostMove) : (s.setHost h).responses = s.responses := rfl

/-! `State.receive` -/
@[simp] theorem receive_S (r : Word16) : (s.receive r).S = s.S := rfl
@[simp] theorem receive_I (r : Word16) : (s.receive r).I = s.I := rfl
@[simp] theorem receive_J (r : Word16) : (s.receive r).J = s.J := rfl
@[simp] theorem receive_K (r : Word16) : (s.receive r).K = s.K := rfl
@[simp] theorem receive_Z (r : Word16) : (s.receive r).Z = s.Z := rfl
@[simp] theorem receive_A (r : Word16) : (s.receive r).A = s.A := rfl
@[simp] theorem receive_W (r : Word16) : (s.receive r).W = s.W := rfl
@[simp] theorem receive_T1 (r : Word16) : (s.receive r).T1 = s.T1 := rfl
@[simp] theorem receive_T2 (r : Word16) : (s.receive r).T2 = s.T2 := rfl
@[simp] theorem receive_VALID (r : Word16) : (s.receive r).VALID = s.VALID := rfl
@[simp] theorem receive_LA (r : Word16) : (s.receive r).LA = s.LA := rfl
@[simp] theorem receive_LB (r : Word16) : (s.receive r).LB = s.LB := rfl
@[simp] theorem receive_CACC (r : Word16) : (s.receive r).CACC = s.CACC := rfl
@[simp] theorem receive_scratchDraws (r : Word16) : (s.receive r).scratchDraws = s.scratchDraws := rfl
@[simp] theorem receive_host (r : Word16) : (s.receive r).host = s.host := rfl
@[simp] theorem receive_responses (r : Word16) : (s.receive r).responses = s.responses ++ [r] := rfl

/-! `State.respond` and `State.raise` are `State.receive` of their response word. -/

theorem respond_eq (st : Status) (data : Byte) : s.respond st data = s.receive (responseWord st data) := rfl
theorem raise_eq (st : Status) : s.raise st = s.receive (responseWord st 0x00) := rfl

@[simp] theorem respond_S (st : Status) (data : Byte) : (s.respond st data).S = s.S := rfl
@[simp] theorem respond_I (st : Status) (data : Byte) : (s.respond st data).I = s.I := rfl
@[simp] theorem respond_J (st : Status) (data : Byte) : (s.respond st data).J = s.J := rfl
@[simp] theorem respond_K (st : Status) (data : Byte) : (s.respond st data).K = s.K := rfl
@[simp] theorem respond_Z (st : Status) (data : Byte) : (s.respond st data).Z = s.Z := rfl
@[simp] theorem respond_A (st : Status) (data : Byte) : (s.respond st data).A = s.A := rfl
@[simp] theorem respond_W (st : Status) (data : Byte) : (s.respond st data).W = s.W := rfl
@[simp] theorem respond_T1 (st : Status) (data : Byte) : (s.respond st data).T1 = s.T1 := rfl
@[simp] theorem respond_T2 (st : Status) (data : Byte) : (s.respond st data).T2 = s.T2 := rfl
@[simp] theorem respond_VALID (st : Status) (data : Byte) : (s.respond st data).VALID = s.VALID := rfl
@[simp] theorem respond_LA (st : Status) (data : Byte) : (s.respond st data).LA = s.LA := rfl
@[simp] theorem respond_LB (st : Status) (data : Byte) : (s.respond st data).LB = s.LB := rfl
@[simp] theorem respond_CACC (st : Status) (data : Byte) : (s.respond st data).CACC = s.CACC := rfl
@[simp] theorem respond_scratchDraws (st : Status) (data : Byte) : (s.respond st data).scratchDraws = s.scratchDraws := rfl
@[simp] theorem respond_host (st : Status) (data : Byte) : (s.respond st data).host = s.host := rfl
@[simp] theorem respond_responses (st : Status) (data : Byte) :
    (s.respond st data).responses = s.responses ++ [responseWord st data] := rfl

/-! `resetMove` keeps what is not the engine's. -/

@[simp] theorem resetMove_S : (resetMove s).S = [] := rfl
@[simp] theorem resetMove_I : (resetMove s).I = 0 := rfl
@[simp] theorem resetMove_J : (resetMove s).J = 0 := rfl
@[simp] theorem resetMove_K : (resetMove s).K = 0 := rfl
@[simp] theorem resetMove_Z : (resetMove s).Z = 0 := rfl
@[simp] theorem resetMove_A : (resetMove s).A = 0 := rfl
@[simp] theorem resetMove_W : (resetMove s).W = 0 := rfl
@[simp] theorem resetMove_T1 : (resetMove s).T1 = 0 := rfl
@[simp] theorem resetMove_T2 : (resetMove s).T2 = 0 := rfl
@[simp] theorem resetMove_VALID : (resetMove s).VALID = false := rfl
@[simp] theorem resetMove_LA : (resetMove s).LA = 0 := rfl
@[simp] theorem resetMove_LB : (resetMove s).LB = 0 := rfl
@[simp] theorem resetMove_CACC : (resetMove s).CACC = 0 := rfl
@[simp] theorem resetMove_scratchDraws : (resetMove s).scratchDraws = s.scratchDraws := rfl
@[simp] theorem resetMove_host : (resetMove s).host = s.host := rfl
@[simp] theorem resetMove_responses : (resetMove s).responses = s.responses := rfl

/-- Zeroizing leaves what a reset leaves (spec/44_utility.md R180). -/
theorem clear_eq_resetMove : s.clear = resetMove s := by
  unfold State.clear
  rw [fill_zero]
  rfl

end Sys2Proof.Machine
end

