-- ==== Sys2Proof/Laws/Bodies.lean ====
section
/-! SUPPORT. For each body of spec/40_permutation_core.md and spec/41_absorb_squeeze.md one lemma that
says what it computes, in the relations of Safety.lean, and the ways to carry a property through the
bodies without unfolding them. -/

namespace Sys2Proof.Machine

/-! ### Swap -/

@[simp] theorem swap_S (x y : Byte) (s : State) : (swap x y s).S = s.S.exchange x y := rfl
@[simp] theorem swap_I (x y : Byte) (s : State) : (swap x y s).I = s.I := rfl
@[simp] theorem swap_J (x y : Byte) (s : State) : (swap x y s).J = s.J := rfl
@[simp] theorem swap_K (x y : Byte) (s : State) : (swap x y s).K = s.K := rfl
@[simp] theorem swap_Z (x y : Byte) (s : State) : (swap x y s).Z = s.Z := rfl
@[simp] theorem swap_A (x y : Byte) (s : State) : (swap x y s).A = s.A := rfl
@[simp] theorem swap_W (x y : Byte) (s : State) : (swap x y s).W = s.W := rfl
@[simp] theorem swap_VALID (x y : Byte) (s : State) : (swap x y s).VALID = s.VALID := rfl
@[simp] theorem swap_LA (x y : Byte) (s : State) : (swap x y s).LA = s.LA := rfl
@[simp] theorem swap_LB (x y : Byte) (s : State) : (swap x y s).LB = s.LB := rfl
@[simp] theorem swap_CACC (x y : Byte) (s : State) : (swap x y s).CACC = s.CACC := rfl
@[simp] theorem swap_host (x y : Byte) (s : State) : (swap x y s).host = s.host := rfl
@[simp] theorem swap_responses (x y : Byte) (s : State) : (swap x y s).responses = s.responses := rfl
@[simp] theorem swap_scratchDraws (x y : Byte) (s : State) :
    (swap x y s).scratchDraws = s.scratchDraws + 1 := rfl

theorem swap_exchanged (x y : Byte) (s : State) : Exchanged x y s (swap x y s) :=
  fun a => read_exchange s.S x y a

theorem swap_frame (x y : Byte) (s : State) : KeepsRegisters [.T1, .T2] s (swap x y s) := by
  intro r h; cases r <;> simp_all [State.value]

/-- An exchange keeps the array a permutation (R101). -/
theorem Exchanged.permuted {x y : Byte} {s t : State} (h : Exchanged x y s t) (hs : s.permuted) :
    t.permuted := by
  have heq : t.S.read = s.S.read ∘ Equiv.swap x y := by
    funext a
    rw [h a, Function.comp, Equiv.swap_apply_def]
    split <;> [rfl; split <;> rfl]
  rw [State.permuted, heq]
  exact hs.comp (Equiv.swap x y).bijective

/-! ### Update and whip -/

/-- What one update computes (R102). -/
theorem update_updated (s : State) : Updated s (update s) where
  walkI := rfl
  walkJ := rfl
  walkK := rfl
  array := fun a => read_exchange s.S _ _ a
  frame := by intro r h; cases r <;> simp_all [State.value, update]

@[simp] theorem update_W (s : State) : (update s).W = s.W := rfl
@[simp] theorem update_A (s : State) : (update s).A = s.A := rfl
@[simp] theorem update_Z (s : State) : (update s).Z = s.Z := rfl
@[simp] theorem update_I (s : State) : (update s).I = s.I + s.W := rfl

/-- A whip as the last of 512 updates with `W` written. -/
theorem whip_eq (s : State) :
    whip s = (Nat.iterate update 512 s).setW ((Nat.iterate update 512 s).W + 2) := by
  unfold whip; rfl

/-- A property of states that an update keeps, a whip keeps, but for its last write of `W`. -/
theorem iterate_update_preserves {P : State → Prop} (hu : ∀ s, P s → P (update s)) (n : Nat) {s : State}
    (h : P s) : P (Nat.iterate update n s) := by
  induction n generalizing s with
  | zero => exact h
  | succ n ih => exact ih (hu s h)

theorem whip_preserves {P : State → Prop} (hu : ∀ s, P s → P (update s))
    (hw : ∀ s, P s → P (s.setW (s.W + 2))) {s : State} (h : P s) : P (whip s) :=
  whip_eq s ▸ hw _ (iterate_update_preserves hu 512 h)

/-- What a last write of `W` makes of a chain of updates (R103). -/
theorem whipped_of_chain {s t : State} (u : Nat → State) (h0 : u 0 = s)
    (hu : ∀ n, Updated (u n) (u (n + 1))) (ht : t = (u 512).setW ((u 512).W + 2)) : Whipped s t := by
  subst ht
  refine ⟨u, h0, fun n _ => hu n, ?_⟩
  generalize u 512 = v
  exact ⟨fun _ => rfl, rfl, by intro r h; cases r <;> simp_all [State.value]⟩

/-- What one whip computes (R103). -/
theorem whip_whipped (s : State) : Whipped s (whip s) := by
  refine whipped_of_chain (fun n => Nat.iterate update n s) (Function.iterate_zero_apply _ _) (fun n => ?_)
    (whip_eq s)
  simp only [Function.iterate_succ_apply']
  exact update_updated _

/-! ### Crush -/

theorem compareExchange_frame (v : Byte) (s : State) :
    KeepsRegisters [.T1, .T2] s (compareExchange v s) := by
  intro r h
  unfold compareExchange
  split
  · exact swap_frame _ _ s r h
  · cases r <;> simp_all [State.value]

/-- One compare-exchange entry by entry (R104). -/
theorem read_compareExchange (v : Byte) (s : State) (a : Byte) :
    (compareExchange v s).S.read a =
      if s.S.read v > s.S.read (mirrorIndex v) then
        if a = v then s.S.read (mirrorIndex v) else if a = mirrorIndex v then s.S.read v else s.S.read a
      else s.S.read a := by
  unfold compareExchange
  split
  · rw [swap_S, read_exchange]
  · rfl

/-- A property of states that each compare-exchange keeps, a crush keeps. -/
theorem crush_preserves {P : State → Prop} (hc : ∀ v s, P s → P (compareExchange v s)) {s : State}
    (h : P s) : P (crush s) := by
  unfold crush
  generalize List.range 128 = vs
  induction vs generalizing s with
  | nil => exact h
  | cons v vs ih => exact ih (hc _ _ h)

theorem toNat_mirrorIndex (v : Byte) : (mirrorIndex v).toNat = 255 - v.toNat := by
  unfold mirrorIndex; bv_omega

/-- The first `n` pairs of a crush: those pairs are in order, the entries between them untouched. -/
theorem crush_pairs (s : State) (n : Nat) (hn : n ≤ 128) :
    let t := (List.range n).foldl (fun s v => compareExchange (BitVec.ofNat 8 v) s) s
    (∀ v : Byte, v.toNat < n →
      (t.S.read v).toNat = min (s.S.read v).toNat (s.S.read (mirrorIndex v)).toNat ∧
      (t.S.read (mirrorIndex v)).toNat = max (s.S.read v).toNat (s.S.read (mirrorIndex v)).toNat) ∧
    ∀ a : Byte, n ≤ a.toNat → a.toNat + n ≤ 255 → t.S.read a = s.S.read a := by
  induction n with
  | zero => exact ⟨fun v hv => absurd hv (Nat.not_lt_zero _), fun _ _ _ => rfl⟩
  | succ n ih =>
    obtain ⟨hdone, hrest⟩ := ih (by omega)
    simp only [List.range_succ, List.foldl_append, List.foldl_cons, List.foldl_nil]
    generalize (List.range n).foldl (fun s v => compareExchange (BitVec.ofNat 8 v) s) s = t at hdone hrest
    have hx : (BitVec.ofNat 8 n).toNat = n := by simp; omega
    generalize BitVec.ofNat 8 n = x at hx
    have hm := toNat_mirrorIndex x
    have hlo := hrest x (by omega) (by omega)
    have hhi := hrest (mirrorIndex x) (by omega) (by omega)
    have hother : ∀ a : Byte, a ≠ x → a ≠ mirrorIndex x → (compareExchange x t).S.read a = t.S.read a := by
      intro a h1 h2
      rw [read_compareExchange, if_neg h1, if_neg h2, ite_self]
    constructor
    · intro v hv
      by_cases hvx : v = x
      · subst hvx
        have hne : mirrorIndex v ≠ v := fun h => by rw [h] at hm; omega
        rw [read_compareExchange, read_compareExchange, if_pos rfl, if_neg hne, if_pos rfl, hlo, hhi]
        split <;> rename_i h <;> simp only [gt_iff_lt, BitVec.lt_def] at h <;> omega
      · have hvn : v.toNat < n := by
          have : v.toNat ≠ x.toNat := fun h => hvx (BitVec.toNat_inj.1 h)
          omega
        have hmv := toNat_mirrorIndex v
        rw [hother v hvx (fun h => by rw [h] at hvn; omega),
          hother (mirrorIndex v) (fun h => by rw [h] at hmv; omega)
            (fun h => by rw [h] at hmv; omega)]
        exact hdone v hvn
    · intro a ha1 ha2
      rw [hother a (fun h => by rw [h] at ha1; omega) (fun h => by rw [h] at ha2; omega)]
      exact hrest a (by omega) (by omega)

/-- What one crush computes (R104). -/
theorem crush_crushed (s : State) : Crushed s (crush s) where
  lower := fun v hv => ((crush_pairs s 128 le_rfl).1 v hv).1
  upper := fun v hv => ((crush_pairs s 128 le_rfl).1 v hv).2
  frame := fun r hr => crush_preserves (P := fun t => t.value r = s.value r)
    (fun v t h => by rw [compareExchange_frame v t r hr, h]) rfl

/-! ### Shuffle -/

theorem shuffle_eq (s : State) :
    shuffle s = (whip (crush (whip (crush (whip s))))).setA 0x00 := by
  unfold shuffle; rfl

/-- The chain of a shuffle with its last write of `A` (R105). -/
theorem shuffled_of_chain {s a b c d e : State} (h1 : Whipped s a) (h2 : Crushed a b) (h3 : Whipped b c)
    (h4 : Crushed c d) (h5 : Whipped d e) : Shuffled s (e.setA 0x00) :=
  ⟨a, b, c, d, e, h1, h2, h3, h4, h5, fun _ => rfl, rfl, by
    clear h1 h2 h3 h4 h5; intro r h; cases r <;> simp_all [State.value]⟩

/-- What one shuffle computes (R105). -/
theorem shuffle_shuffled (s : State) : Shuffled s (shuffle s) :=
  shuffle_eq s ▸ shuffled_of_chain (whip_whipped _) (crush_crushed _) (whip_whipped _) (crush_crushed _)
    (whip_whipped _)

/-- A property of states that every part of a shuffle keeps, a shuffle keeps. -/
theorem shuffle_preserves {P : State → Prop} (hu : ∀ s, P s → P (update s))
    (hw : ∀ s, P s → P (s.setW (s.W + 2))) (hc : ∀ v s, P s → P (compareExchange v s))
    (ha : ∀ s, P s → P (s.setA 0x00)) {s : State} (h : P s) : P (shuffle s) := by
  rw [shuffle_eq]
  exact ha _ (whip_preserves hu hw (crush_preserves hc (whip_preserves hu hw (crush_preserves hc
    (whip_preserves hu hw h)))))

@[simp] theorem shuffle_A (s : State) : (shuffle s).A = 0x00 := by rw [shuffle_eq]; rfl

/-! ### What every body leaves alone -/

/-- The engine's state outside the cipher context, the host's stream and the responses. -/
structure KeepsInterface (s t : State) : Prop where
  VALID : t.VALID = s.VALID
  LA : t.LA = s.LA
  LB : t.LB = s.LB
  CACC : t.CACC = s.CACC
  host : t.host = s.host
  responses : t.responses = s.responses

theorem KeepsInterface.refl (s : State) : KeepsInterface s s := ⟨rfl, rfl, rfl, rfl, rfl, rfl⟩

theorem KeepsInterface.trans {s t u : State} (h : KeepsInterface s t) (k : KeepsInterface t u) :
    KeepsInterface s u :=
  ⟨k.VALID.trans h.VALID, k.LA.trans h.LA, k.LB.trans h.LB, k.CACC.trans h.CACC, k.host.trans h.host,
    k.responses.trans h.responses⟩

theorem swap_interface (x y : Byte) (s : State) : KeepsInterface s (swap x y s) :=
  ⟨rfl, rfl, rfl, rfl, rfl, rfl⟩

theorem update_interface (s : State) : KeepsInterface s (update s) := ⟨rfl, rfl, rfl, rfl, rfl, rfl⟩

theorem compareExchange_interface (v : Byte) (s : State) : KeepsInterface s (compareExchange v s) := by
  unfold compareExchange
  split <;> exact ⟨rfl, rfl, rfl, rfl, rfl, rfl⟩

theorem whip_interface (s : State) : KeepsInterface s (whip s) :=
  whip_preserves (P := KeepsInterface s) (fun t h => h.trans (update_interface t))
    (fun _ h => ⟨h.1, h.2, h.3, h.4, h.5, h.6⟩) (.refl s)

theorem crush_interface (s : State) : KeepsInterface s (crush s) :=
  crush_preserves (P := KeepsInterface s) (fun v t h => h.trans (compareExchange_interface v t)) (.refl s)

theorem shuffle_interface (s : State) : KeepsInterface s (shuffle s) :=
  shuffle_preserves (P := KeepsInterface s) (fun t h => h.trans (update_interface t))
    (fun _ h => ⟨h.1, h.2, h.3, h.4, h.5, h.6⟩) (fun v t h => h.trans (compareExchange_interface v t))
    (fun _ h => ⟨h.1, h.2, h.3, h.4, h.5, h.6⟩) (.refl s)

theorem shuffleIfPending_interface (s : State) : KeepsInterface s (shuffleIfPending s) := by
  unfold shuffleIfPending
  split
  · exact shuffle_interface s
  · exact .refl s

theorem shuffleIfSaturated_interface (s : State) : KeepsInterface s (shuffleIfSaturated s) := by
  unfold shuffleIfSaturated
  split
  · exact shuffle_interface s
  · exact .refl s

theorem absorbNibble_interface (n : Nibble) (s : State) : KeepsInterface s (absorbNibble n s) :=
  (shuffleIfSaturated_interface s).trans ⟨rfl, rfl, rfl, rfl, rfl, rfl⟩

theorem absorbByte_interface (b : Byte) (s : State) : KeepsInterface s (absorbByte b s) :=
  (absorbNibble_interface _ s).trans (absorbNibble_interface _ _)

theorem absorbStop_interface (s : State) : KeepsInterface s (absorbStop s) :=
  (shuffleIfSaturated_interface s).trans ⟨rfl, rfl, rfl, rfl, rfl, rfl⟩

theorem output_interface (s : State) : KeepsInterface s (output s) := ⟨rfl, rfl, rfl, rfl, rfl, rfl⟩

theorem drip_interface (s : State) : KeepsInterface s (drip s) :=
  ((shuffleIfPending_interface s).trans (update_interface _)).trans (output_interface _)

/-! ### The permutation and the canonical form through the bodies (R32, R106) -/

theorem permuted_of_reads {s t : State} (h : KeepsArray s t) (hs : s.permuted) : t.permuted := by
  have : t.S.read = s.S.read := funext h
  rw [State.permuted, this]; exact hs

theorem swap_permuted (x y : Byte) {s : State} (h : s.permuted) : (swap x y s).permuted :=
  (swap_exchanged x y s).permuted h

theorem update_permuted {s : State} (h : s.permuted) : (update s).permuted :=
  (update_updated s).array.permuted h

theorem compareExchange_permuted (v : Byte) {s : State} (h : s.permuted) :
    (compareExchange v s).permuted := by
  unfold compareExchange
  split
  · exact swap_permuted _ _ h
  · exact h

theorem whip_permuted {s : State} (h : s.permuted) : (whip s).permuted :=
  whip_preserves (P := State.permuted) (fun _ => update_permuted) (fun _ h => h) h

theorem crush_permuted {s : State} (h : s.permuted) : (crush s).permuted :=
  crush_preserves (P := State.permuted) (fun v _ => compareExchange_permuted v) h

theorem shuffle_permuted {s : State} (h : s.permuted) : (shuffle s).permuted :=
  shuffle_preserves (P := State.permuted) (fun _ => update_permuted) (fun _ h => h)
    (fun v _ => compareExchange_permuted v) (fun _ h => h) h

theorem swap_wf (x y : Byte) {s : State} (h : s.S.wf = true) : (swap x y s).S.wf = true :=
  wf_exchange h x y

theorem update_wf {s : State} (h : s.S.wf = true) : (update s).S.wf = true := wf_exchange h _ _

theorem compareExchange_wf (v : Byte) {s : State} (h : s.S.wf = true) :
    (compareExchange v s).S.wf = true := by
  unfold compareExchange
  split
  · exact swap_wf _ _ h
  · exact h

theorem whip_wf {s : State} (h : s.S.wf = true) : (whip s).S.wf = true :=
  whip_preserves (P := fun s => s.S.wf = true) (fun _ => update_wf) (fun _ h => h) h

theorem crush_wf {s : State} (h : s.S.wf = true) : (crush s).S.wf = true :=
  crush_preserves (P := fun s => s.S.wf = true) (fun v _ => compareExchange_wf v) h

theorem shuffle_wf {s : State} (h : s.S.wf = true) : (shuffle s).S.wf = true :=
  shuffle_preserves (P := fun s => s.S.wf = true) (fun _ => update_wf) (fun _ h => h)
    (fun v _ => compareExchange_wf v) (fun _ h => h) h

/-! ### The registers a shuffle leaves alone -/

@[simp] theorem shuffle_Z (s : State) : (shuffle s).Z = s.Z :=
  shuffle_preserves (P := fun t => t.Z = s.Z) (fun _ h => h) (fun _ h => h)
    (fun v t h => by unfold compareExchange; split <;> exact h) (fun _ h => h) rfl

@[simp] theorem crush_W (s : State) : (crush s).W = s.W :=
  crush_preserves (P := fun t => t.W = s.W)
    (fun v t h => by unfold compareExchange; split <;> exact h) rfl

@[simp] theorem crush_I (s : State) : (crush s).I = s.I :=
  crush_preserves (P := fun t => t.I = s.I)
    (fun v t h => by unfold compareExchange; split <;> exact h) rfl

theorem iterate_update_W (n : Nat) (s : State) : (Nat.iterate update n s).W = s.W :=
  iterate_update_preserves (P := fun t => t.W = s.W) (fun _ h => h) n rfl

/-- `I` is advanced by `W` in each of `n` updates (R103). -/
theorem iterate_update_I (n : Nat) (s : State) :
    (Nat.iterate update n s).I = s.I + BitVec.ofNat 8 n * s.W := by
  induction n with
  | zero => simp
  | succ n ih =>
    rw [Function.iterate_succ_apply', update_I, iterate_update_W, ih]
    rw [BitVec.add_assoc, BitVec.ofNat_add, BitVec.add_mul, BitVec.one_mul]

/-- 512 x `W` is a multiple of 256, so a whip leaves `I` where it was (R103). -/
@[simp] theorem whip_I (s : State) : (whip s).I = s.I := by
  rw [whip_eq, setW_I, iterate_update_I]; simp

@[simp] theorem whip_W (s : State) : (whip s).W = s.W + 2 := by
  rw [whip_eq, setW_W, iterate_update_W]

@[simp] theorem shuffle_I (s : State) : (shuffle s).I = s.I := by
  rw [shuffle_eq, setA_I]; simp

@[simp] theorem shuffle_W (s : State) : (shuffle s).W = s.W + 6 := by
  rw [shuffle_eq, setA_W]; simp only [whip_W, crush_W, BitVec.add_assoc]; rfl

/-! ### The conditional shuffles -/

theorem shuffleIfPending_A (s : State) : (shuffleIfPending s).A = 0x00 := by
  unfold shuffleIfPending
  split
  · exact shuffle_A s
  · rename_i h
    simp only [gt_iff_lt, BitVec.lt_def] at h
    exact BitVec.eq_of_toNat_eq (by simp at h ⊢; omega)

theorem shuffleIfPending_shuffledWhen (s : State) :
    ShuffledWhen (s.A ≠ 0x00) s (shuffleIfPending s) := by
  unfold shuffleIfPending ShuffledWhen
  by_cases h : s.A = 0x00
  · simp [h]
  · have hpos : s.A > 0x00 := by
      have : s.A.toNat ≠ 0 := fun h0 => h (BitVec.eq_of_toNat_eq (by simpa using h0))
      simp only [gt_iff_lt, BitVec.lt_def]; simp; omega
    rw [if_pos hpos]
    exact ⟨fun _ => shuffle_shuffled s, fun hn => absurd h hn⟩

theorem shuffleIfSaturated_shuffledWhen (s : State) :
    ShuffledWhen (s.A = 0x80) s (shuffleIfSaturated s) := by
  unfold shuffleIfSaturated ShuffledWhen
  split
  · rename_i h; exact ⟨fun _ => shuffle_shuffled s, fun hn => absurd h hn⟩
  · rename_i h; exact ⟨fun hh => absurd hh h, fun _ => rfl⟩

/-! ### The gate of the engine commands -/

theorem whenLive_of_live {s : State} (h : s.VALID = true) (body : State → State) :
    whenLive s body = .next (body s) := by simp [whenLive, h]

theorem whenLive_of_dead {s : State} (h : s.VALID = false) (body : State → State) :
    whenLive s body = .next (s.raise .notInitialised) := by simp [whenLive, h]

end Sys2Proof.Machine
end

