-- ==== Sys2Proof/Laws/Step.lean ====
section
/-! SUPPORT. What a command, a command word and a step can do, said once. -/

namespace Sys2Proof.Machine

theorem KeepsInterface.respond {s t : State} (h : KeepsInterface s t) (st : Status) (data : Byte) :
    Responds (responseWord st data) s (t.respond st data) :=
  ⟨by simp [h.host], by simp [h.responses]⟩

/-- A gated command answers a next state with one response, whichever way `VALID` is. -/
theorem gated_answers (s : State) (body : State → State) (data : State → Byte)
    (h : ∀ s, KeepsInterface s (body s)) :
    ∃ t r, whenLive s (fun s => (body s).respond .ok (data s)) = .next t ∧ Responds r s t := by
  cases hv : s.VALID
  · exact ⟨_, _, whenLive_of_dead hv _, rfl, rfl⟩
  · exact ⟨_, _, whenLive_of_live hv _, (h s).respond .ok (data s)⟩

/-! ### The gated commands, each as its body behind the gate -/

theorem exec_swap (x y : Byte) (s : State) :
    exec (.swap x y) s = whenLive s fun s => (swap x y s).respond .ok 0x00 := rfl

theorem exec_update (s : State) :
    exec .update s = whenLive s fun s => (update s).respond .ok 0x00 := rfl

theorem exec_whip (s : State) :
    exec .whip s = whenLive s fun s => (whip s).respond .ok 0x00 := rfl

theorem exec_crush (s : State) :
    exec .crush s = whenLive s fun s => (crush s).respond .ok 0x00 := rfl

theorem exec_shuffle (s : State) :
    exec .shuffle s = whenLive s fun s => (shuffle s).respond .ok 0x00 := rfl

theorem exec_absn (n : Nibble) (s : State) :
    exec (.absn n) s = whenLive s fun s => (absorbNibble n s).respond .ok 0x00 := rfl

theorem exec_absb (b : Byte) (s : State) :
    exec (.absb b) s = whenLive s fun s => (absorbByte b s).respond .ok 0x00 := rfl

theorem exec_abss (s : State) :
    exec .abss s = whenLive s fun s => (absorbStop s).respond .ok 0x00 := rfl

theorem exec_shufp (s : State) :
    exec .shufp s = whenLive s fun s => (shuffleIfPending s).respond .ok 0x00 := rfl

theorem exec_output (s : State) :
    exec .output s = whenLive s fun s => (output s).respond .ok (output s).Z := rfl

theorem exec_drip (s : State) :
    exec .drip s = whenLive s fun s => (drip s).respond .ok (drip s).Z := rfl

theorem exec_crypt (d : Byte) (s : State) :
    exec (.crypt d) s = whenLive s fun s => (drip s).respond .ok (d ^^^ (drip s).Z) := rfl

/-- Everything an initialisation writes (spec/40_permutation_core.md R100), and what it leaves. -/
theorem exec_init (s : State) : ∃ t, exec .init s = .next t ∧ Responds 0x0000 s t ∧
    t.S = Memory.fill (fun v => v) ∧ t.I = 0 ∧ t.J = 0 ∧ t.K = 0 ∧ t.Z = 0 ∧ t.A = 0 ∧ t.W = 1 ∧
    t.VALID = true ∧ t.T1 = s.T1 ∧ t.T2 = s.T2 ∧ t.LA = s.LA ∧ t.LB = s.LB ∧ t.CACC = s.CACC ∧
    t.scratchDraws = s.scratchDraws :=
  ⟨_, rfl, ⟨rfl, rfl⟩, rfl, rfl, rfl, rfl, rfl, rfl, rfl, rfl, rfl, rfl, rfl, rfl, rfl, rfl⟩

/-- Zeroizing is the reset, answered (spec/44_utility.md R180). -/
theorem exec_zeroize (s : State) : exec .zeroize s = .next ((resetMove s).respond .ok 0x00) := by
  rw [← clear_eq_resetMove]; rfl

theorem exec_lchk_of_eq {s : State} (h : s.LA = s.LB) : exec .lchk s = .next (s.respond .ok 0x00) := by
  simp [exec, execLchk, h]

theorem exec_lchk_of_ne {s : State} (h : s.LA ≠ s.LB) :
    exec .lchk s = .next (s.raise .lengthMismatch) := by
  simp [exec, execLchk, h]

/-! ### Every command answers -/

/-- An ungated command answers a next state with one response. -/
theorem respond_answers {s t : State} (st : Status) (data : Byte) (h : KeepsInterface s t ∨
    (t.host = s.host ∧ t.responses = s.responses)) :
    ∃ u r, (Host.Outcome.next (t.respond st data) : Host.Outcome State Fault Refusal) = .next u ∧
      Responds r s u := by
  have hh : t.host = s.host ∧ t.responses = s.responses := h.elim (fun k => ⟨k.host, k.responses⟩) id
  exact ⟨_, _, rfl, by simp [hh.1], by rw [respond_responses, hh.2]⟩

/-- Every command answers a next state: no fault, no refusal, exactly one response. -/
theorem exec_answers (i : Instr) (s : State) : ∃ t r, exec i s = .next t ∧ Responds r s t := by
  cases i with
  | init => exact respond_answers .ok 0x00 (.inr ⟨rfl, rfl⟩)
  | swap x y => exact gated_answers s (swap x y) (fun _ => 0x00) (swap_interface x y)
  | update => exact gated_answers s update (fun _ => 0x00) update_interface
  | whip => exact gated_answers s whip (fun _ => 0x00) whip_interface
  | crush => exact gated_answers s crush (fun _ => 0x00) crush_interface
  | shuffle => exact gated_answers s shuffle (fun _ => 0x00) shuffle_interface
  | absn n => exact gated_answers s (absorbNibble n) (fun _ => 0x00) (absorbNibble_interface n)
  | absb b => exact gated_answers s (absorbByte b) (fun _ => 0x00) (absorbByte_interface b)
  | abss => exact gated_answers s absorbStop (fun _ => 0x00) absorbStop_interface
  | output => exact gated_answers s output (fun s => (output s).Z) output_interface
  | drip => exact gated_answers s drip (fun s => (drip s).Z) drip_interface
  | shufp => exact gated_answers s shuffleIfPending (fun _ => 0x00) shuffleIfPending_interface
  | crypt d => exact gated_answers s drip (fun s => d ^^^ (drip s).Z) drip_interface
  | zeroize => rw [exec_zeroize]; exact respond_answers .ok 0x00 (.inr ⟨rfl, rfl⟩)
  | setla len => exact respond_answers .ok 0x00 (.inr ⟨rfl, rfl⟩)
  | setlb len => exact respond_answers .ok 0x00 (.inr ⟨rfl, rfl⟩)
  | lchk =>
    by_cases h : s.LA = s.LB
    · exact ⟨_, _, exec_lchk_of_eq h, rfl, rfl⟩
    · exact ⟨_, _, exec_lchk_of_ne h, rfl, rfl⟩
  | cmpz => exact respond_answers .ok 0x00 (.inr ⟨rfl, rfl⟩)
  | cmpa x y => exact respond_answers .ok 0x00 (.inr ⟨rfl, rfl⟩)
  | cmpr => exact respond_answers .ok _ (.inr ⟨rfl, rfl⟩)

/-- What a legal command word does. -/
theorem acceptCommand_of_command {w : Word32} {i : Instr} (h : decode w = .command i) (s : State) :
    acceptCommand w s = exec i s := by simp [acceptCommand, h]

/-- What an illegal command word does (spec/30_encoding.md R76). -/
theorem acceptCommand_of_illegal {w : Word32} {why : Illegal} (h : decode w = .illegal why) (s : State) :
    acceptCommand w s = .next (s.raise .illegalCommand) := by simp [acceptCommand, h]

/-- Every command word answers a next state with one response. -/
theorem acceptCommand_answers (w : Word32) (s : State) :
    ∃ t r, acceptCommand w s = .next t ∧ Responds r s t := by
  cases h : decode w with
  | command i => rw [acceptCommand_of_command h]; exact exec_answers i s
  | illegal why => exact ⟨_, _, acceptCommand_of_illegal h s, rfl, rfl⟩

/-- The three things a step can be. -/
theorem step_cases {s t : State} (h : step s = .next t) :
    (s.host = [] ∧ t = s) ∨
    (∃ rest, s.host = .reset :: rest ∧ t = resetMove (s.setHost rest)) ∨
    (∃ w rest, s.host = .command w :: rest ∧ acceptCommand w (s.setHost rest) = .next t) := by
  unfold step at h
  split at h
  · exact .inl ⟨by assumption, by simpa using h.symm⟩
  · exact .inr (.inl ⟨_, by assumption, by simpa using h.symm⟩)
  · exact .inr (.inr ⟨_, _, by assumption, h⟩)

end Sys2Proof.Machine
end

