-- ==== Sys2Proof/Laws/Context.lean ====
section
/-! SUPPORT. The bodies read nothing but the cipher context: from states with the same context
(`SameContext`: the array's entries, `I J K Z A W` and `VALID`) each leaves states with the same context. -/

namespace Sys2Proof.Machine

/-! ### The bodies of the absorb/squeeze layer in one line each -/

theorem absorbNibble_eq (n : Nibble) (s : State) :
    absorbNibble n s = (swap (shuffleIfSaturated s).A (nibbleTarget n) (shuffleIfSaturated s)).setA
      ((shuffleIfSaturated s).A + 1) := by unfold absorbNibble; rfl

theorem absorbByte_eq (b : Byte) (s : State) :
    absorbByte b s = absorbNibble (highNibble b) (absorbNibble (lowNibble b) s) := by
  unfold absorbByte; rfl

theorem absorbStop_eq (s : State) :
    absorbStop s = (shuffleIfSaturated s).setA ((shuffleIfSaturated s).A + 1) := by
  unfold absorbStop; rfl

theorem drip_eq (s : State) : drip s = output (update (shuffleIfPending s)) := by unfold drip; rfl

theorem shuffleIfSaturated_A (s : State) :
    (shuffleIfSaturated s).A = if s.A = 0x80 then 0x00 else s.A := by
  unfold shuffleIfSaturated
  split
  · exact shuffle_A s
  · rfl

theorem drip_A (s : State) : (drip s).A = 0x00 := by
  rw [drip_eq]
  have h := shuffleIfPending_A s
  generalize shuffleIfPending s = t at h
  exact h

theorem shuffleIfPending_of_zero {s : State} (h : s.A = 0x00) : shuffleIfPending s = s := by
  unfold shuffleIfPending; rw [h]; rfl

/-! ### The relation -/

/-- The same context, field by field. -/
theorem sameContext_iff (s t : State) :
    SameContext s t ↔ (∀ a : Byte, t.S.read a = s.S.read a) ∧ t.I = s.I ∧ t.J = s.J ∧ t.K = s.K ∧
      t.Z = s.Z ∧ t.A = s.A ∧ t.W = s.W ∧ t.VALID = s.VALID := by
  constructor
  · rintro ⟨ha, hr⟩
    have b : ∀ r, r ∉ [.T1, .T2, .LA, .LB, .CACC] → t.value r = s.value r := hr
    have hv := b .VALID (by decide)
    refine ⟨ha, BitVec.eq_of_toNat_eq (b .I (by decide)), BitVec.eq_of_toNat_eq (b .J (by decide)),
      BitVec.eq_of_toNat_eq (b .K (by decide)), BitVec.eq_of_toNat_eq (b .Z (by decide)),
      BitVec.eq_of_toNat_eq (b .A (by decide)), BitVec.eq_of_toNat_eq (b .W (by decide)), ?_⟩
    simp only [State.value] at hv
    revert hv
    cases s.VALID <;> cases t.VALID <;> simp
  · rintro ⟨ha, hI, hJ, hK, hZ, hA, hW, hV⟩
    refine ⟨ha, fun r hr => ?_⟩
    cases r <;> simp_all [State.value]

theorem SameContext.refl (s : State) : SameContext s s := ⟨fun _ => rfl, fun _ _ => rfl⟩

theorem SameContext.symm {s t : State} (h : SameContext s t) : SameContext t s :=
  ⟨fun a => (h.1 a).symm, fun r hr => (h.2 r hr).symm⟩

theorem SameContext.trans {s t u : State} (h : SameContext s t) (k : SameContext t u) : SameContext s u :=
  ⟨fun a => (k.1 a).trans (h.1 a), fun r hr => (k.2 r hr).trans (h.2 r hr)⟩

theorem SameContext.read {s t : State} (h : SameContext s t) : t.S.read = s.S.read := funext h.1

theorem SameContext.A {s t : State} (h : SameContext s t) : t.A = s.A :=
  ((sameContext_iff s t).1 h).2.2.2.2.2.1

theorem SameContext.Z {s t : State} (h : SameContext s t) : t.Z = s.Z :=
  ((sameContext_iff s t).1 h).2.2.2.2.1

theorem SameContext.VALID {s t : State} (h : SameContext s t) : t.VALID = s.VALID :=
  ((sameContext_iff s t).1 h).2.2.2.2.2.2.2

/-! ### What does not touch the context -/

theorem respond_sameContext (s : State) (st : Status) (d : Byte) : SameContext s (s.respond st d) :=
  (sameContext_iff _ _).2 ⟨fun _ => rfl, rfl, rfl, rfl, rfl, rfl, rfl, rfl⟩

theorem setLA_sameContext (s : State) (len : Word24) : SameContext s (s.setLA len) :=
  (sameContext_iff _ _).2 ⟨fun _ => rfl, rfl, rfl, rfl, rfl, rfl, rfl, rfl⟩

theorem setLB_sameContext (s : State) (len : Word24) : SameContext s (s.setLB len) :=
  (sameContext_iff _ _).2 ⟨fun _ => rfl, rfl, rfl, rfl, rfl, rfl, rfl, rfl⟩

theorem setCACC_sameContext (s : State) (v : Byte) : SameContext s (s.setCACC v) :=
  (sameContext_iff _ _).2 ⟨fun _ => rfl, rfl, rfl, rfl, rfl, rfl, rfl, rfl⟩

/-! ### The bodies on the same context -/

theorem swap_sameContext (x y : Byte) {s t : State} (h : SameContext s t) :
    SameContext (swap x y s) (swap x y t) := by
  obtain ⟨ha, hI, hJ, hK, hZ, hA, hW, hV⟩ := (sameContext_iff _ _).1 h
  refine (sameContext_iff _ _).2 ⟨fun a => ?_, hI, hJ, hK, hZ, hA, hW, hV⟩
  rw [swap_S, swap_S, read_exchange, read_exchange, ha, ha, ha]

theorem setWalk_sameContext (i j k : Byte) {s t : State} (h : SameContext s t) :
    SameContext (s.setWalk i j k) (t.setWalk i j k) := by
  obtain ⟨ha, _, _, _, hZ, hA, hW, hV⟩ := (sameContext_iff _ _).1 h
  exact (sameContext_iff _ _).2 ⟨ha, rfl, rfl, rfl, hZ, hA, hW, hV⟩

theorem setA_sameContext (v : Byte) {s t : State} (h : SameContext s t) :
    SameContext (s.setA v) (t.setA v) := by
  obtain ⟨ha, hI, hJ, hK, hZ, _, hW, hV⟩ := (sameContext_iff _ _).1 h
  exact (sameContext_iff _ _).2 ⟨ha, hI, hJ, hK, hZ, rfl, hW, hV⟩

theorem setW_sameContext {s t : State} (h : SameContext s t) :
    SameContext (s.setW (s.W + 2)) (t.setW (t.W + 2)) := by
  obtain ⟨ha, hI, hJ, hK, hZ, hA, hW, hV⟩ := (sameContext_iff _ _).1 h
  exact (sameContext_iff _ _).2 ⟨ha, hI, hJ, hK, hZ, hA, congrArg (· + 2) hW, hV⟩

theorem update_sameContext {s t : State} (h : SameContext s t) : SameContext (update s) (update t) := by
  have hc := (sameContext_iff _ _).1 h
  simp only [update, Memory.readIndexed, h.read, hc.2.1, hc.2.2.1, hc.2.2.2.1, hc.2.2.2.2.2.2.1]
  exact swap_sameContext _ _ (setWalk_sameContext _ _ _ h)

theorem compareExchange_sameContext (v : Byte) {s t : State} (h : SameContext s t) :
    SameContext (compareExchange v s) (compareExchange v t) := by
  unfold compareExchange
  rw [h.read]
  split
  · exact swap_sameContext _ _ h
  · obtain ⟨ha, hI, hJ, hK, hZ, hA, hW, hV⟩ := (sameContext_iff _ _).1 h
    exact (sameContext_iff _ _).2 ⟨ha, hI, hJ, hK, hZ, hA, hW, hV⟩

theorem iterate_update_sameContext (n : Nat) {s t : State} (h : SameContext s t) :
    SameContext (Nat.iterate update n s) (Nat.iterate update n t) := by
  induction n generalizing s t with
  | zero => exact h
  | succ n ih => exact ih (update_sameContext h)

theorem whip_sameContext {s t : State} (h : SameContext s t) : SameContext (whip s) (whip t) := by
  rw [whip_eq, whip_eq]
  exact setW_sameContext (iterate_update_sameContext 512 h)

theorem crush_sameContext {s t : State} (h : SameContext s t) : SameContext (crush s) (crush t) := by
  unfold crush
  generalize List.range 128 = vs
  induction vs generalizing s t with
  | nil => exact h
  | cons v vs ih => exact ih (compareExchange_sameContext _ h)

theorem shuffle_sameContext {s t : State} (h : SameContext s t) : SameContext (shuffle s) (shuffle t) := by
  rw [shuffle_eq, shuffle_eq]
  exact setA_sameContext _ (whip_sameContext (crush_sameContext (whip_sameContext (crush_sameContext
    (whip_sameContext h)))))

theorem shuffleIfPending_sameContext {s t : State} (h : SameContext s t) :
    SameContext (shuffleIfPending s) (shuffleIfPending t) := by
  unfold shuffleIfPending
  rw [h.A]
  split
  · exact shuffle_sameContext h
  · exact h

theorem shuffleIfSaturated_sameContext {s t : State} (h : SameContext s t) :
    SameContext (shuffleIfSaturated s) (shuffleIfSaturated t) := by
  unfold shuffleIfSaturated
  rw [h.A]
  split
  · exact shuffle_sameContext h
  · exact h

theorem absorbNibble_sameContext (n : Nibble) {s t : State} (h : SameContext s t) :
    SameContext (absorbNibble n s) (absorbNibble n t) := by
  have k := shuffleIfSaturated_sameContext h
  rw [absorbNibble_eq, absorbNibble_eq, k.A]
  exact setA_sameContext _ (swap_sameContext _ _ k)

theorem absorbByte_sameContext (b : Byte) {s t : State} (h : SameContext s t) :
    SameContext (absorbByte b s) (absorbByte b t) := by
  rw [absorbByte_eq, absorbByte_eq]
  exact absorbNibble_sameContext _ (absorbNibble_sameContext _ h)

theorem absorbStop_sameContext {s t : State} (h : SameContext s t) :
    SameContext (absorbStop s) (absorbStop t) := by
  have k := shuffleIfSaturated_sameContext h
  rw [absorbStop_eq, absorbStop_eq, k.A]
  exact setA_sameContext _ k

theorem output_sameContext {s t : State} (h : SameContext s t) : SameContext (output s) (output t) := by
  obtain ⟨ha, hI, hJ, hK, hZ, hA, hW, hV⟩ := (sameContext_iff _ _).1 h
  have hz : (output t).Z = (output s).Z := by
    simp only [output, Memory.readOutput, setZ_Z, h.read, hI, hJ, hK, hZ]
  exact (sameContext_iff _ _).2 ⟨ha, hI, hJ, hK, hz, hA, hW, hV⟩

theorem drip_sameContext {s t : State} (h : SameContext s t) : SameContext (drip s) (drip t) := by
  rw [drip_eq, drip_eq]
  exact output_sameContext (update_sameContext (shuffleIfPending_sameContext h))

/-! ### The registers each body may write (spec/10_state.md R21) -/

theorem KeepsRegisters.refl (l : List RegName) (s : State) : KeepsRegisters l s s := fun _ _ => rfl

theorem KeepsRegisters.trans {l : List RegName} {s t u : State} (h : KeepsRegisters l s t)
    (k : KeepsRegisters l t u) : KeepsRegisters l s u := fun r hr => (k r hr).trans (h r hr)

theorem KeepsRegisters.mono {l l' : List RegName} {s t : State} (h : KeepsRegisters l s t)
    (k : ∀ r, r ∈ l → r ∈ l') : KeepsRegisters l' s t := fun r hr => h r fun hm => hr (k r hm)

/-- Responding changes no register. -/
theorem KeepsRegisters.respond {l : List RegName} {s t : State} (h : KeepsRegisters l s t) (st : Status)
    (d : Byte) : KeepsRegisters l s (t.respond st d) := by
  intro r hr
  rw [← h r hr]
  cases r <;> rfl

theorem setA_frame (s : State) (v : Byte) : KeepsRegisters [.A] s (s.setA v) := by
  intro r hr; cases r <;> simp_all [State.value]

theorem setW_frame (s : State) (v : Byte) : KeepsRegisters [.W] s (s.setW v) := by
  intro r hr; cases r <;> simp_all [State.value]

theorem whip_frame (s : State) : KeepsRegisters [.I, .J, .K, .W, .T1, .T2] s (whip s) := fun r hr =>
  whip_preserves (P := fun t => t.value r = s.value r)
    (fun t h => ((update_updated t).frame.mono (by decide) r hr).trans h)
    (fun t h => ((setW_frame t _).mono (by decide) r hr).trans h) rfl

theorem shuffle_frame (s : State) : KeepsRegisters [.I, .J, .K, .A, .W, .T1, .T2] s (shuffle s) :=
  fun r hr => shuffle_preserves (P := fun t => t.value r = s.value r)
    (fun t h => ((update_updated t).frame.mono (by decide) r hr).trans h)
    (fun t h => ((setW_frame t _).mono (by decide) r hr).trans h)
    (fun v t h => ((compareExchange_frame v t).mono (by decide) r hr).trans h)
    (fun t h => ((setA_frame t _).mono (by decide) r hr).trans h) rfl

theorem shuffleIfPending_frame (s : State) :
    KeepsRegisters [.I, .J, .K, .A, .W, .T1, .T2] s (shuffleIfPending s) := by
  unfold shuffleIfPending
  split
  · exact shuffle_frame s
  · exact .refl _ s

theorem shuffleIfSaturated_frame (s : State) :
    KeepsRegisters [.I, .J, .K, .A, .W, .T1, .T2] s (shuffleIfSaturated s) := by
  unfold shuffleIfSaturated
  split
  · exact shuffle_frame s
  · exact .refl _ s

theorem absorbNibble_frame (n : Nibble) (s : State) :
    KeepsRegisters [.I, .J, .K, .A, .W, .T1, .T2] s (absorbNibble n s) := by
  rw [absorbNibble_eq]
  exact ((shuffleIfSaturated_frame s).trans ((swap_frame _ _ _).mono (by decide))).trans
    ((setA_frame _ _).mono (by decide))

theorem absorbStop_frame (s : State) :
    KeepsRegisters [.I, .J, .K, .A, .W, .T1, .T2] s (absorbStop s) := by
  rw [absorbStop_eq]
  exact (shuffleIfSaturated_frame s).trans ((setA_frame _ _).mono (by decide))

theorem output_frame (s : State) : KeepsRegisters [.Z] s (output s) := by
  intro r hr; cases r <;> simp_all [State.value, output]

theorem drip_frame (s : State) :
    KeepsRegisters [.I, .J, .K, .Z, .A, .W, .T1, .T2] s (drip s) := by
  rw [drip_eq]
  exact (((shuffleIfPending_frame s).mono (by decide)).trans ((update_updated _).frame.mono (by decide))).trans
    ((output_frame _).mono (by decide))

end Sys2Proof.Machine
end

