-- ==== Sys2Proof/Laws/Decode.lean ====
section
/-! SUPPORT. The laws of the fields of a command word (spec/30_encoding.md R72, R74) and of the decoder. -/

namespace Sys2Proof

theorem opField_append (op : Byte) (arg : Word24) : opField (op ++ arg) = op := by
  unfold opField
  rw [BitVec.extractLsb'_append_eq_of_le (Nat.le_refl 24)]
  simp

theorem argField_append (op : Byte) (arg : Word24) : argField (op ++ arg) = arg := by
  unfold argField
  rw [BitVec.extractLsb'_append_eq_of_add_le (by decide)]
  simp

/-- A command word is its two fields (R72). -/
theorem word_split (w : Word32) : opField w ++ argField w = w := by
  unfold opField argField
  apply BitVec.eq_of_getLsbD_eq
  intro i hi
  rw [BitVec.getLsbD_append]
  split
  · simp_all
  · simp only [BitVec.getLsbD_extractLsb']
    have : i - 24 < 8 := by omega
    simp only [this, decide_true, Bool.true_and]
    congr 1; omega

/-! ### An `arg` field cut as its format lays it out (R74) -/

theorem split_P (arg : Word24) : (arg.extractLsb' 16 8 ++ argX arg ++ argY arg : Word24) = arg := by
  unfold argX argY
  apply BitVec.eq_of_getLsbD_eq
  intro i hi
  rw [BitVec.getLsbD_append, BitVec.getLsbD_append]
  split
  · simp_all
  · split
    · simp only [BitVec.getLsbD_extractLsb', *]; simp; congr 1; omega
    · simp only [BitVec.getLsbD_extractLsb']
      have : i - 8 - 8 < 8 := by omega
      simp only [this, decide_true, Bool.true_and]; congr 1; omega

theorem split_B (arg : Word24) : (arg.extractLsb' 8 16 ++ argY arg : Word24) = arg := by
  unfold argY
  apply BitVec.eq_of_getLsbD_eq
  intro i hi
  rw [BitVec.getLsbD_append]
  split
  · simp_all
  · simp only [BitVec.getLsbD_extractLsb']
    have : i - 8 < 16 := by omega
    simp only [this, decide_true, Bool.true_and]; congr 1; omega

theorem split_Q (arg : Word24) : (arg.extractLsb' 4 20 ++ argN arg : Word24) = arg := by
  unfold argN
  apply BitVec.eq_of_getLsbD_eq
  intro i hi
  rw [BitVec.getLsbD_append]
  split
  · simp_all
  · simp only [BitVec.getLsbD_extractLsb']
    have : i - 4 < 20 := by omega
    simp only [this, decide_true, Bool.true_and]; congr 1; omega

/-! ### An `arg` field with its reserved bits zero is its operands alone (R74, R76) -/

theorem operands_P {arg : Word24} (h : arg &&& 0xFF0000 = 0) :
    ((0 : Byte) ++ argX arg ++ argY arg : Word24) = arg := by
  have hs := split_P arg
  have e : (0xFF0000 : Word24) = (BitVec.allOnes 8) ++ (0 : Byte) ++ (0 : Byte) := by decide
  have ht : arg.extractLsb' 16 8 = 0 := by
    rw [← hs, e, BitVec.and_append, BitVec.and_append, BitVec.and_allOnes] at h
    have h2 := congrArg (BitVec.extractLsb' 16 8) h
    rw [BitVec.extractLsb'_append_eq_of_le (by decide), BitVec.extractLsb'_append_eq_of_le (by decide)] at h2
    simpa using h2
  rw [ht] at hs; exact hs

theorem operands_B {arg : Word24} (h : arg &&& 0xFFFF00 = 0) :
    ((0 : Word16) ++ argY arg : Word24) = arg := by
  have hs := split_B arg
  have e : (0xFFFF00 : Word24) = (BitVec.allOnes 16) ++ (0 : Byte) := by decide
  have ht : arg.extractLsb' 8 16 = 0 := by
    rw [← hs, e, BitVec.and_append, BitVec.and_allOnes] at h
    have h2 := congrArg (BitVec.extractLsb' 8 16) h
    rw [BitVec.extractLsb'_append_eq_of_le (by decide)] at h2
    simpa using h2
  rw [ht] at hs; exact hs

theorem operands_Q {arg : Word24} (h : arg &&& 0xFFFFF0 = 0) :
    ((0 : BitVec 20) ++ argN arg : Word24) = arg := by
  have hs := split_Q arg
  have e : (0xFFFFF0 : Word24) = (BitVec.allOnes 20) ++ (0 : Nibble) := by decide
  have ht : arg.extractLsb' 4 20 = 0 := by
    rw [← hs, e, BitVec.and_append, BitVec.and_allOnes] at h
    have h2 := congrArg (BitVec.extractLsb' 4 20) h
    rw [BitVec.extractLsb'_append_eq_of_le (by decide)] at h2
    simpa using h2
  rw [ht] at hs; exact hs

theorem operands_N {arg : Word24} (h : arg &&& 0xFFFFFF = 0) :
    (0 : Word24) = arg := by
  have e : (0xFFFFFF : Word24) = BitVec.allOnes 24 := by decide
  rw [e, BitVec.and_allOnes] at h; exact h.symm

theorem arg_ofFields {m : Mnemonic} {arg : Word24} (h : arg &&& m.format.reserved = 0) :
   (Instr.ofFields m arg).arg = arg := by
  cases m
  case ABSN => exact operands_Q h
  case ABSB => exact operands_B h
  case CRYPT => exact operands_B h
  case SWAP => exact operands_P h
  case CMPA => exact operands_P h
  case SETLA => rfl
  case SETLB => rfl
  all_goals exact operands_N h

theorem mnemonic_ofFields (m : Mnemonic) (arg : Word24) : (Instr.ofFields m arg).mnemonic = m := by cases m <;> rfl

/-! ### The opcode column read both ways (R75) -/

theorem ofOp_op (m : Mnemonic) : Mnemonic.ofOp m.op = some m := by cases m <;> rfl

theorem op_of_ofOp {b : Byte} {m : Mnemonic} (h : Mnemonic.ofOp b = some m) : m.op = b := by
  revert h; revert b; cases m <;> decide

/-! ### The operands of an `arg` field put together -/

theorem argY_P (a x y : Byte) : argY (a ++ x ++ y : Word24) = y := by
  unfold argY; rw [BitVec.extractLsb'_append_eq_of_add_le (by decide)]; simp

theorem argX_P (a x y : Byte) : argX (a ++ x ++ y : Word24) = x := by
  unfold argX
  rw [BitVec.extractLsb'_append_eq_of_le (by decide), BitVec.extractLsb'_append_eq_of_add_le (by decide)]
  simp

theorem argY_B (a : Word16) (b : Byte) : argY (a ++ b : Word24) = b := by
  unfold argY; rw [BitVec.extractLsb'_append_eq_of_add_le (by decide)]; simp

theorem argN_Q (a : BitVec 20) (n : Nibble) : argN (a ++ n : Word24) = n := by
  unfold argN; rw [BitVec.extractLsb'_append_eq_of_add_le (by decide)]; simp

/-! ### The decoder said once -/

/-- A word decodes to a command exactly when its opcode is a mnemonic's and the reserved bits of that
mnemonic's format are zero; the command is then the one of its fields. -/
theorem decode_eq_command {w : Word32} {i : Instr} :
    decode w = .command i ↔ ∃ m : Mnemonic, opField w = m.op ∧ argField w &&& m.format.reserved = 0 ∧
      i = Instr.ofFields m (argField w) := by
  constructor
  · intro h
    unfold decode at h
    split at h
    · cases h
    · rename_i m hm
      split at h
      · rename_i hr; cases h; exact ⟨m, (op_of_ofOp hm).symm, hr, rfl⟩
      · cases h
  · rintro ⟨m, h1, h2, rfl⟩
    rw [decode, h1, ofOp_op]
    exact if_pos h2

end Sys2Proof
end

