-- ==== Sys2Proof/Laws/PerInstr.lean ====
section
/-! SUPPORT. One lemma for each command about its encoding as a word: the opcode field is the table's and
the reserved bits of its format are zero (spec/30_encoding.md R72, R74, R76). -/

namespace Sys2Proof

namespace Laws.EncodedFields

/-- The word of a command carries the command's opcode, and no reserved bit of its format is set. -/
def Statement (i : Instr) : Prop :=
  opField (encode i) = i.mnemonic.op ∧ argField (encode i) &&& i.mnemonic.format.reserved = 0

theorem of_arg {i : Instr} (h : i.arg &&& i.mnemonic.format.reserved = 0) : Statement i :=
  ⟨opField_append _ _, by rw [encode, argField_append]; exact h⟩

theorem reserved_B (b : Byte) : ((0 : Word16) ++ b : Word24) &&& 0xFFFF00 = 0 := by
  revert b; decide

theorem reserved_P (x y : Byte) : ((0 : Byte) ++ x ++ y : Word24) &&& 0xFF0000 = 0 := by
  have h : (0xFF0000 : Word24) = (0xFF : Byte) ++ (0 : Byte) ++ (0 : Byte) := by decide
  rw [h, BitVec.and_append, BitVec.and_append]
  simp

theorem init : Statement .init := of_arg rfl
theorem swap (x y : Byte) : Statement (.swap x y) := of_arg (reserved_P x y)
theorem update : Statement .update := of_arg rfl
theorem whip : Statement .whip := of_arg rfl
theorem crush : Statement .crush := of_arg rfl
theorem shuffle : Statement .shuffle := of_arg rfl
theorem absn (n : Nibble) : Statement (.absn n) := of_arg (by revert n; decide)
theorem absb (b : Byte) : Statement (.absb b) := of_arg (reserved_B b)
theorem abss : Statement .abss := of_arg rfl
theorem output : Statement .output := of_arg rfl
theorem drip : Statement .drip := of_arg rfl
theorem shufp : Statement .shufp := of_arg rfl
theorem crypt (d : Byte) : Statement (.crypt d) := of_arg (reserved_B d)
theorem zeroize : Statement .zeroize := of_arg rfl
theorem setla (len : Word24) : Statement (.setla len) := of_arg (BitVec.and_zero)
theorem setlb (len : Word24) : Statement (.setlb len) := of_arg (BitVec.and_zero)
theorem lchk : Statement .lchk := of_arg rfl
theorem cmpz : Statement .cmpz := of_arg rfl
theorem cmpa (x y : Byte) : Statement (.cmpa x y) := of_arg (reserved_P x y)
theorem cmpr : Statement .cmpr := of_arg rfl

end Laws.EncodedFields

end Sys2Proof
end

