-- ==== Sys2Proof/Laws/Port.lean ====
section
/-! SUPPORT. What the port makes of a command that has completed (spec/30_encoding.md R71). -/

namespace Sys2Proof.Machine

/-- The completed command leaves the port presenting the response the step would append, and the engine in
the state the step would leave without it. -/
theorem complete_eq (p : Port) (w : Word32) : ∃ e r, acceptCommand w p.engine = .next (e.receive r) ∧
    p.complete w = { engine := e, phase := .responding w r } ∧ e.responses = p.engine.responses := by
  obtain ⟨t, r, h, _, hr⟩ := acceptCommand_answers w p.engine
  refine ⟨{ t with responses := p.engine.responses }, r, ?_, ?_, rfl⟩
  · rw [h]
    congr 1
    unfold State.receive
    rw [← hr]
  · unfold Port.complete
    rw [h]
    simp [hr, List.getLastD_eq_getLast?]

end Sys2Proof.Machine
end

