-- ==== Sys2Proof/Laws/Sequences.lean ====
section
/-! SUPPORT. How a series of commands runs (spec/30_encoding.md R79): one command, one response; a series
whose responses are all `OK` runs through and can be put together from its parts. -/

namespace Sys2Proof.Machine

/-- A command that decodes back to itself is issued as it executes. -/
theorem issue_of_exec {i : Instr} {s t : State} {r : Word16} (hd : decode (encode i) = .command i)
    (h : exec i s = .next t) (hr : t.responses = s.responses ++ [r]) : issue i s = some (t, r) := by
  have hs : step (s.setHost (.command (encode i) :: s.host)) = .next t := by
    unfold step
    show acceptCommand (encode i) ((s.setHost _).setHost s.host) = _
    rw [acceptCommand_of_command hd]
    exact h
  unfold issue
  rw [hs]
  show t.responses.getLast?.map _ = _
  rw [hr]
  simp

/-- A series of commands that runs through, every response with status `OK`. -/
def RunsThrough (is : List Instr) (s t : State) (rs : List Word16) : Prop :=
  issueAll is s = some (t, rs) ∧ ∀ r ∈ rs, statusField r = 0x00

theorem runsThrough_nil (s : State) : RunsThrough [] s s [] := ⟨rfl, by simp⟩

theorem runsThrough_cons {i : Instr} {is : List Instr} {s t u : State} {r : Word16} {rs : List Word16}
    (h : issue i s = some (t, r)) (h0 : statusField r = 0x00) (k : RunsThrough is t u rs) :
    RunsThrough (i :: is) s u (r :: rs) := by
  refine ⟨?_, by simpa [h0] using k.2⟩
  rw [issueAll, h]
  simp only []
  rw [if_pos (show statusField r = Status.ok.code from h0), k.1]

theorem runsThrough_append {is js : List Instr} {s t u : State} {rs us : List Word16}
    (h : RunsThrough is s t rs) (k : RunsThrough js t u us) : RunsThrough (is ++ js) s u (rs ++ us) := by
  induction is generalizing s rs with
  | nil => obtain ⟨h1, _⟩ := h; cases h1; exact k
  | cons i is ih =>
    obtain ⟨h1, h2⟩ := h
    rw [issueAll] at h1
    split at h1
    · cases h1
    · rename_i v r hi
      split at h1
      · split at h1
        · cases h1
        · rename_i w rs' hrs
          cases h1
          exact runsThrough_cons hi (h2 r (by simp)) (ih ⟨hrs, fun q hq => h2 q (by simp [hq])⟩)
      · rename_i hr
        cases h1
        exact absurd (h2 r (by simp)) hr

/-! ### Random draws (spec/43_random.md) -/

/-- A series that runs through has no refusal among its responses. -/
theorem refusalIn_of_runsThrough {is : List Instr} {s t : State} {rs : List Word16}
    (h : RunsThrough is s t rs) : refusalIn rs = none := by
  unfold refusalIn
  rw [List.find?_eq_none]
  intro r hr
  simp [h.2 r hr, Status.code]

/-- From a bound of 2 on, `RANDOM32U` is the rejection loop (R172). -/
theorem random32Uniform_eq {bound : Word32} (h : 2 ≤ bound.toNat) (fuel : Nat) (s : State) :
    random32Uniform fuel bound s = drawUniform fuel bound s :=
  if_neg fun hlt => by
    have : bound.toNat < 2 := hlt
    omega

/-- One draw of the loop that gives a word: accepted when it is not below the bias, else drawn again. -/
theorem drawUniform_of_word {s t : State} {r : Word32} (h : drawRandom32 s = some (t, .word r))
    (fuel : Nat) (bound : Word32) : drawUniform (fuel + 1) bound s =
      if r ≥ uniformMin bound then some (t, .value (r % bound)) else drawUniform fuel bound t := by
  rw [drawUniform, h]

/-- A refused draw ends the loop with its response. -/
theorem drawUniform_of_refused {s t : State} {r : Word16} (h : drawRandom32 s = some (t, .refused r))
    (fuel : Nat) (bound : Word32) : drawUniform (fuel + 1) bound s = some (t, .refused r) := by
  rw [drawUniform, h]

end Sys2Proof.Machine
end

