-- ==== Sys2Proof/Tests/Slice0.lean ====
section
/-! SUPPORT. Tests, their expected results from spec/95_test_vectors.md (V-...) or by hand from the rule
named, and for every statement with hypotheses a theorem that meets all of them at once. -/

namespace Sys2Proof.Tests

open Sys2Proof.Machine

/-! ### Decode: every row of the opcode map, by the words of V-ENC-1 -/

theorem test_decode_init : decode 0x01000000 = .command .init := by decide
theorem test_decode_swap : decode 0x020003C8 = .command (.swap 0x03 0xC8) := by decide
theorem test_decode_update : decode 0x03000000 = .command .update := by decide
theorem test_decode_whip : decode 0x04000000 = .command .whip := by decide
theorem test_decode_crush : decode 0x05000000 = .command .crush := by decide
theorem test_decode_shuffle : decode 0x06000000 = .command .shuffle := by decide
theorem test_decode_absn : decode 0x10000005 = .command (.absn 0x5) := by decide
theorem test_decode_absb : decode 0x11000061 = .command (.absb 0x61) := by decide
theorem test_decode_abss : decode 0x12000000 = .command .abss := by decide
theorem test_decode_output : decode 0x13000000 = .command .output := by decide
theorem test_decode_drip : decode 0x14000000 = .command .drip := by decide
theorem test_decode_shufp : decode 0x20000000 = .command .shufp := by decide
theorem test_decode_crypt : decode 0x21000053 = .command (.crypt 0x53) := by decide
theorem test_decode_zeroize : decode 0x30000000 = .command .zeroize := by decide
theorem test_decode_setla : decode 0x31000008 = .command (.setla 8) := by decide
theorem test_decode_setlb : decode 0x32FFFFFF = .command (.setlb 16777215) := by decide
theorem test_decode_lchk : decode 0x33000000 = .command .lchk := by decide
theorem test_decode_cmpz : decode 0x34000000 = .command .cmpz := by decide
theorem test_decode_cmpa : decode 0x35006364 = .command (.cmpa 0x63 0x64) := by decide
theorem test_decode_cmpr : decode 0x36000000 = .command .cmpr := by decide

/-- V-ENC-2, the unassigned opcodes. -/
theorem test_illegal_opcodes :
    ∀ op ∈ ([0x00, 0x07, 0x15, 0x22, 0x37, 0xFF] : List Byte),
      decode (op ++ (0 : Word24)) = .illegal (.unknownOpcode op) := by decide

/-- V-ENC-2, a reserved bit set in each format that has one. -/
theorem test_illegal_reserved_bits :
    decode 0x01000001 = .illegal (.reservedBitSet .INIT) ∧
    decode 0x10000010 = .illegal (.reservedBitSet .ABSN) ∧
    decode 0x11000100 = .illegal (.reservedBitSet .ABSB) ∧
    decode 0x02010000 = .illegal (.reservedBitSet .SWAP) ∧
    decode 0x33000001 = .illegal (.reservedBitSet .LCHK) ∧
    decode 0x14800000 = .illegal (.reservedBitSet .DRIP) ∧
    decode 0x35FF0000 = .illegal (.reservedBitSet .CMPA) := by decide

/-- The columns match and mask of R75 for one row of each format, as the table prints them. -/
theorem test_mask_column :
    Mnemonic.DRIP.mask = 0xFFFFFFFF ∧ Mnemonic.ABSN.mask = 0xFFFFFFF0 ∧
    Mnemonic.CRYPT.mask = 0xFFFFFF00 ∧ Mnemonic.CMPA.mask = 0xFFFF0000 ∧
    Mnemonic.SETLA.mask = 0xFF000000 := by decide

theorem test_table_word : decodeTableWord 32 0x020003C8 = some (.swap 3 200) ∧
    decodeTableWord 32 0x15000000 = none := by decide

/-! ### The assembler (30_encoding.md R78) -/

/-- The examples of R78. -/
theorem test_assemble_examples :
    assembleText ['I', 'N', 'I', 'T'] = .word 0x01000000 ∧
    assembleText ['S', 'W', 'A', 'P', ' ', '3', ',', ' ', '2', '0', '0'] = .word 0x020003C8 ∧
    assembleText ['A', 'B', 'S', 'B', ' ', '\'', 'a', '\''] = .word 0x11000061 ∧
    assembleText ['C', 'R', 'Y', 'P', 'T', ' ', '0', 'x', '5', '3'] = .word 0x21000053 ∧
    assembleText ['S', 'E', 'T', 'L', 'A', ' ', '8', ' ', ';', 'n'] = .word 0x31000008 := by decide

/-- Log 10: a quoted operand needs no blank before it, a number does. -/
theorem test_blank_before_operand :
    assembleText ['A', 'B', 'S', 'B', '\'', 'a', '\''] = .word 0x11000061 ∧
    assembleText ['A', 'B', 'S', 'N', '5'] = .rejected := by decide

/-! An ill-formed line for each check of WellFormed.lean. -/

theorem test_refuses_wide_nibble : (AsmLine.mk .ABSN [.number 16]).wellFormed = false := by decide
theorem test_refuses_wide_byte : (AsmLine.mk .ABSB [.number 256]).wellFormed = false := by decide
theorem test_refuses_wide_crypt : (AsmLine.mk .CRYPT [.number 256]).wellFormed = false := by decide
theorem test_refuses_first_of_pair :
    (AsmLine.mk .SWAP [.number 256, .number 0]).wellFormed = false := by decide
theorem test_refuses_second_of_pair :
    (AsmLine.mk .CMPA [.number 0, .number 256]).wellFormed = false := by decide
theorem test_refuses_long_length : (AsmLine.mk .SETLA [.number 16777216]).wellFormed = false := by decide
theorem test_refuses_quoted_nibble : (AsmLine.mk .ABSN [.quoted 'a']).wellFormed = false := by decide
theorem test_refuses_quoted_length : (AsmLine.mk .SETLB [.quoted 'a']).wellFormed = false := by decide
theorem test_refuses_non_ascii : (AsmLine.mk .ABSB [.quoted 'é']).wellFormed = false := by decide
theorem test_refuses_missing_operand : (AsmLine.mk .SWAP [.number 1]).wellFormed = false := by decide
theorem test_refuses_extra_operand : (AsmLine.mk .INIT [.number 1]).wellFormed = false := by decide
theorem test_accepts_largest_operands :
    (AsmLine.mk .ABSN [.number 15]).wellFormed = true ∧
    (AsmLine.mk .SETLA [.number 16777215]).wellFormed = true := by decide

/-! ### One step of each command -/

/-- A context with a few entries of `S` listed and the others 0x00: as much of the `INIT` state as one
command reads. -/
def fragment (cells : Memory) : State := { State.reset with S := cells, W := 1, VALID := true }

/-- The state a command ends in. -/
def after (i : Instr) (s : State) : State :=
  match exec i s with
  | .next t => t
  | .fault _ => s
  | .refused _ => s

/-- V-CORE-1. -/
theorem test_init : (after .init State.reset).W = 1 ∧ (after .init State.reset).VALID = true ∧
    (after .init State.reset).responses = [0x0000] := by decide

/-- V-CORE-2. -/
theorem test_swap : (after (.swap 0x03 0xC8) (fragment [(3, 3), (200, 200)])).S = [(3, 200), (200, 3)] := by
  decide

/-- V-CORE-3, row 2: `I` and `J` 1, `K` 2 before it. -/
theorem test_update :
    let t := after .update { fragment [(2, 2), (3, 3), (5, 5)] with I := 1, J := 1, K := 2 }
    t.I = 0x02 ∧ t.J = 0x05 ∧ t.K = 0x09 ∧ t.S = [(2, 5), (3, 3), (5, 2)] := by decide

set_option maxRecDepth 20000 in
/-- V-CORE-7: a disordered pair is exchanged; an ordered one, S[1] below S[254], is not. -/
theorem test_crush :
    (after .crush (fragment [(0, 255), (1, 1), (127, 128), (128, 127), (254, 254)])).S =
      [(1, 1), (127, 127), (128, 128), (254, 254), (255, 255)] := by decide

/-- V-ABS-1. -/
theorem test_absn :
    let t := after (.absn 0x5) (fragment [(133, 133)])
    t.S = [(0, 133)] ∧ t.A = 0x01 := by decide

/-- V-ABS-2: low nibble first. -/
theorem test_absb_low_nibble_first :
    let t := after (.absb 0x61) (fragment [(1, 1), (129, 129), (134, 134)])
    t.S = [(0, 129), (1, 134), (134, 1)] ∧ t.A = 0x02 := by decide

/-- V-ABS-3: the second swap moves what the first one put there. -/
theorem test_absb_equal_nibbles :
    (after (.absb 0x00) (fragment [(1, 1), (128, 128)])).S = [(0, 128), (128, 1)] := by decide

/-- V-ABS-4. -/
theorem test_abss : (after .abss (fragment [(1, 1)])).A = 0x01 ∧
    (after .abss (fragment [(1, 1)])).S = [(1, 1)] := by decide

/-- V-ABS-5, after `ABSB 0x41`: the entries it changed are those listed. -/
theorem test_output :
    let t := after .output { fragment [(0, 129), (1, 132), (132, 1)] with A := 2 }
    t.responses = [0x0081] ∧ t.A = 2 ∧ (after .output t).responses = [0x0081, 0x0000] := by decide

/-- V-ABS-6, first drip. -/
theorem test_drip : (after .drip (fragment [(1, 1), (2, 2), (3, 3), (4, 4)])).responses = [0x0004] := by
  decide

/-- V-PROT-1: with no nibble pending nothing changes. -/
theorem test_shufp : (after .shufp (fragment [(1, 1)])).W = 1 ∧
    (after .shufp (fragment [(1, 1)])).responses = [0x0000] := by decide

/-- R141: 0x53 XOR the drip 0x04 of V-ABS-6. -/
theorem test_crypt :
    (after (.crypt 0x53) (fragment [(1, 1), (2, 2), (3, 3), (4, 4)])).responses = [0x0057] := by decide

/-- V-UTL-1. -/
theorem test_zeroize :
    let t := after .zeroize { fragment [(1, 1)] with I := 9, LA := 5, LB := 6, CACC := 3, T1 := 7 }
    t.S = [] ∧ t.LA = 0 ∧ t.CACC = 0 ∧ t.T1 = 0 ∧ t.VALID = false ∧ t.responses = [0x0000] := by decide

/-- V-ENC-3. -/
theorem test_setla : (after (.setla 16777215) State.reset).LA = 16777215 := by decide

/-- V-UTL-2, row 4. -/
theorem test_setlb : (after (.setlb 7) { State.reset with LA := 8 }).LB = 7 ∧
    (after (.setlb 7) { State.reset with LA := 8 }).LA = 8 := by decide

/-- V-UTL-2, rows 3 and 7. -/
theorem test_lchk : (after .lchk { State.reset with LA := 8 }).responses = [0x0100] ∧
    (after .lchk { State.reset with LA := 8, LB := 8 }).responses = [0x0000] := by decide

/-- V-UTL-9, last part. -/
theorem test_cmpz : (after .cmpz { State.reset with CACC := 0x81 }).CACC = 0x00 := by decide

/-- V-UTL-9: 01, then F0 against 70. -/
theorem test_cmpa : (after (.cmpa 0xF0 0x70) { State.reset with CACC := 0x01 }).CACC = 0x81 := by decide

/-- V-UTL-8: the top bit comes down to bit 0; the accumulator stays. -/
theorem test_cmpr : (after .cmpr { State.reset with CACC := 0x80 }).responses = [0x0001] ∧
    (after .cmpr { State.reset with CACC := 0x80 }).CACC = 0x80 ∧
    (after .cmpr State.reset).responses = [0x0000] := by decide

set_option maxRecDepth 20000 in
/-- R103 by hand on an array of zeros: each update makes `J` the old `K` and adds the new `I` to `K`, so
512 of them with `W` 3 add 3 x 131328, a multiple of 256, to `K`; the last `I` is 0, so `J` is `K`. -/
theorem test_whip :
    let t := after .whip { fragment [] with W := 3, K := 1 }
    t.I = 0 ∧ t.J = 1 ∧ t.K = 1 ∧ t.W = 5 := by decide

/-- V-ENC-4: an illegal word comes before `NOT_INITIALISED` and before `LENGTH_MISMATCH`; a live context
is needed by `DRIP`. -/
theorem test_decode_priority :
    step (State.reset.withFetchWord 32 0x14000001) = .next (State.reset.receive 0x0200) ∧
    step (State.reset.withFetchWord 32 0x14000000) = .next (State.reset.receive 0x0300) := ⟨rfl, rfl⟩

/-- R171, V-RND-2: the first drip is the least significant byte. -/
theorem test_little_endian : packLittleEndian [0x77, 0x9A, 0x8E, 0x01] = some 0x018E9A77 := by decide

/-- V-RND-3, the column `min`. -/
theorem test_uniform_min : uniformMin 3 = 1 ∧ uniformMin 10 = 6 ∧ uniformMin 256 = 0 ∧
    uniformMin 0x80000001 = 0x7FFFFFFF := by decide

/-- R172, "Statuses: those of `DRIP`": without a context the host gets the drip's `NOT_INITIALISED`, and
for a bound below 2 nothing is issued. -/
theorem test_uniform_without_context :
    random32Uniform 1 10 State.reset = some (State.reset.receive 0x0300, .refused 0x0300) ∧
    random32Uniform 1 1 State.reset = some (State.reset, .value 0) := by decide

/-- R71(c): the port answers the word it accepted, here `CMPR`, while the host shows another. -/
theorem test_port_keeps_the_accepted_word :
    (Port.edge (.mk false true 0x30000000 true) (.mk { State.reset with CACC := 0x80 }
      (.executing 0x36000000 0))).phase = .responding 0x36000000 0x0001 := by decide

/-- V-PROT-2: the words of `SETUPN("ABC", 00)`. -/
theorem test_setup_with_nonce_words :
    (setupWithNonce [0x41, 0x42, 0x43] [0x00]).map encode =
      [0x01000000, 0x11000041, 0x11000042, 0x11000043, 0x12000000, 0x11000000, 0x20000000] := by decide

/-- V-UTL-4: the words of `COMPARE`, and its last response. -/
theorem test_compare :
    (runCompare [0x61, 0x62, 0x63] [0x61, 0x62, 0x64] State.reset).map (·.2) =
      some [0x0000, 0x0000, 0x0000, 0x0000, 0x0000, 0x0000, 0x0000, 0x0001] := by decide

/-! ### Witnesses: for each statement with hypotheses a state and operands that meet them all -/

/-- The state after `INIT` from reset. -/
def initState : State := { State.reset with S := Memory.fill fun v => v, W := 1, VALID := true }

theorem initState_read (a : Byte) : initState.S.read a = a := read_fill (fun v => v) a

theorem initState_permuted : initState.permuted := by
  have h : initState.S.read = id := funext initState_read
  rw [State.permuted, h]
  exact Function.bijective_id

theorem initState_inv : Inv initState where
  canonical := wf_fill fun v => v
  live := fun _ => ⟨initState_permuted, by decide, by decide⟩
  dead := fun h => Bool.noConfusion (h : true = false)

/-- A state with a word as the host's one move. -/
def hostWord (w : Word32) (s : State) : State := { s with host := [.command w] }

theorem witness_EncodeOfDecode : decode 0x35006364 = .command (.cmpa 0x63 0x64) := by decide

theorem witness_DecodeFollowsMatchAndMask :
    (0x10000005 : Word32) &&& Mnemonic.ABSN.mask = Mnemonic.ABSN.matchWord := by decide

theorem witness_IllegalWordsAreAnsweredAndChangeNothing :
    decode 0x02010000 = .illegal (.reservedBitSet .SWAP) ∧ (0x00000000 : Word32) ∈
      ([0x00000000, 0x07000000, 0x10000010, 0x01000001, 0x02010000] : List Word32) := by decide

theorem witness_StepRunsTheDecodedCommand :
    (hostWord 0x36000000 initState).host = .command 0x36000000 :: [] ∧
    decode 0x36000000 = .command .cmpr := ⟨rfl, by decide⟩

theorem witness_StepWaitsForTheHost : State.reset.host = [] := rfl

theorem witness_StepResetsTheEngine :
    ({ initState with host := [.reset] } : State).host = .reset :: [] := rfl

theorem witness_EveryWordGetsOneResponse :
    (hostWord 0x07000000 initState).host = .command 0x07000000 :: [] := rfl

/-- The four cases of R77, one after the other. -/
theorem witness_StatusFollowsTheDecodeOrder :
    (decode 0x14000001 = .illegal (.reservedBitSet .DRIP)) ∧
    (decode 0x14000000 = .command .drip ∧ Instr.drip.mnemonic.needsValid = true ∧
      State.reset.VALID = false) ∧
    (decode 0x33000000 = .command .lchk ∧
      ({ State.reset with LA := 8 } : State).LA ≠ ({ State.reset with LA := 8 } : State).LB) ∧
    (decode 0x33000000 = .command .lchk ∧ Instr.lchk.mnemonic.needsValid = false ∧
      State.reset.LA = State.reset.LB) := by decide

/-- One state and word for each status, each answered with the one response shown. -/
theorem witness_OnlyFourStatuses :
    (∃ t, acceptCommand 0x36000000 State.reset = .next t ∧ t.responses = State.reset.responses ++ [0x0000]) ∧
    (∃ t, acceptCommand 0x33000000 { State.reset with LA := 8 } = .next t ∧
      t.responses = State.reset.responses ++ [0x0100]) ∧
    (∃ t, acceptCommand 0x00000000 State.reset = .next t ∧ t.responses = State.reset.responses ++ [0x0200]) ∧
    (∃ t, acceptCommand 0x13000000 State.reset = .next t ∧ t.responses = State.reset.responses ++ [0x0300]) :=
  ⟨⟨_, rfl, rfl⟩, ⟨_, rfl, rfl⟩, ⟨_, rfl, rfl⟩, ⟨_, rfl, rfl⟩⟩

theorem witness_StatusByteIsStatusOf : ∃ t, acceptCommand 0x13000000 State.reset = .next t ∧
    t.responses = State.reset.responses ++ [0x0300] := ⟨_, rfl, rfl⟩

theorem witness_RaisingChangesNothing : ∃ t, acceptCommand 0x13000000 State.reset = .next t ∧
    t.responses = State.reset.responses ++ [0x0300] ∧ statusField 0x0300 ≠ 0x00 :=
  ⟨_, rfl, rfl, by decide⟩

theorem witness_EngineCommandsNeedAContext : State.reset.VALID = false ∧ Instr.output.mnemonic ∈
    ([.SWAP, .UPDATE, .WHIP, .CRUSH, .SHUFFLE, .ABSN, .ABSB, .ABSS, .OUTPUT, .DRIP, .SHUFP, .CRYPT] :
      List Mnemonic) := by decide

/-- A command without a data byte, a status that is not `OK`, and each of the four commands answered `OK`
(V-ABS-5, V-ABS-6, R141, V-UTL-8). -/
theorem witness_DataByteOnlyFromFourCommands :
    (∃ t, acceptCommand 0x34000000 State.reset = .next t ∧ t.responses = State.reset.responses ++ [0x0000] ∧
      decode 0x34000000 = .command .cmpz ∧
      Instr.cmpz.mnemonic ∉ ([.OUTPUT, .DRIP, .CRYPT, .CMPR] : List Mnemonic)) ∧
    (∃ t, acceptCommand 0x13000000 State.reset = .next t ∧ t.responses = State.reset.responses ++ [0x0300] ∧
      statusField 0x0300 ≠ 0x00) ∧
    (∃ t, acceptCommand 0x13000000 (fragment [(0, 129)]) = .next t ∧ t.responses = [] ++ [0x0081] ∧
      statusField 0x0081 = 0x00) ∧
    (∃ t, acceptCommand 0x14000000 (fragment [(1, 1), (2, 2), (3, 3), (4, 4)]) = .next t ∧
      t.responses = [] ++ [0x0004]) ∧
    (∃ t, acceptCommand 0x21000053 (fragment [(1, 1), (2, 2), (3, 3), (4, 4)]) = .next t ∧
      t.responses = [] ++ [0x0057]) ∧
    ∃ t, acceptCommand 0x36000000 { State.reset with CACC := 0x80 } = .next t ∧
      t.responses = [] ++ [0x0001] :=
  ⟨⟨_, rfl, rfl, by decide, by decide⟩, ⟨_, rfl, rfl, by decide⟩, ⟨_, rfl, rfl, by decide⟩, ⟨_, rfl, rfl⟩,
    ⟨_, rfl, rfl⟩, ⟨_, rfl, rfl⟩⟩

/-- The hypotheses on `VALID` of the statements about the twelve engine commands: met by the state after
`INIT` and by the state after reset. -/
theorem witness_live_and_dead : initState.VALID = true ∧ State.reset.VALID = false := ⟨rfl, rfl⟩

theorem witness_SwapExchangesTwoEntries : initState.VALID = true ∧ initState.permuted ∧
    State.reset.VALID = false ∧ (0x07 : Byte) = 0x07 := ⟨rfl, initState_permuted, rfl, rfl⟩

/-- `I == J` after the update: V-CORE-3, row 1. -/
theorem witness_UpdateIsOneWalkStep : (fragment [(1, 1)]).VALID = true ∧ State.reset.VALID = false ∧
    (after .update (fragment [(1, 1)])).I = (after .update (fragment [(1, 1)])).J := by decide

/-- An odd `W`, and the boundary `W == 255`. -/
theorem witness_WhipIsFiveHundredTwelveUpdates :
    ({ initState with W := 255 } : State).VALID = true ∧ ({ initState with W := 255 } : State).W = 255 ∧
    ({ initState with W := 255 } : State).W.toNat % 2 = 1 ∧ State.reset.VALID = false :=
  ⟨rfl, rfl, by decide, rfl⟩

theorem witness_CrushSortsEachPair : initState.VALID = true ∧ initState.permuted ∧
    (127 : Byte).toNat < 128 ∧ State.reset.VALID = false :=
  ⟨rfl, initState_permuted, by decide, rfl⟩

theorem witness_ShuffleIsThreeWhipsAndTwoCrushes : initState.VALID = true ∧ State.reset.VALID = false :=
  witness_live_and_dead

/-- `INIT` without a context, whose array is no permutation, and `UPDATE` on a permutation. -/
theorem witness_CoreCommandsKeepThePermutation :
    (State.reset.VALID = false ∧ ∃ t, exec .init State.reset = .next t) ∧
    Instr.update.mnemonic ∈ ([.INIT, .SWAP, .UPDATE, .WHIP, .CRUSH, .SHUFFLE] : List Mnemonic) ∧
    (Function.Bijective fun a : Byte => initState.S.read a) ∧ ∃ t, exec .update initState = .next t :=
  ⟨⟨rfl, _, rfl⟩, by decide, initState_permuted, _, rfl⟩

/-- The counter at both ends of its range. -/
theorem witness_AbsorbNibbleSwapsAtTheCounter :
    initState.VALID = true ∧ initState.A.toNat = 0 ∧
    ({ initState with A := 128 } : State).VALID = true ∧ ({ initState with A := 128 } : State).A = 128 ∧
    ({ initState with A := 128 } : State).A.toNat ≤ 128 ∧ State.reset.VALID = false :=
  ⟨rfl, rfl, rfl, rfl, by decide, rfl⟩

theorem witness_AbsorbByteIsTwoNibblesLowFirst : initState.VALID = true ∧ State.reset.VALID = false :=
  witness_live_and_dead

theorem witness_AbsorbStopOnlyCounts : initState.VALID = true ∧ State.reset.VALID = false :=
  witness_live_and_dead

theorem witness_OutputReadsThroughTheArray : initState.VALID = true ∧ State.reset.VALID = false :=
  witness_live_and_dead

theorem witness_DripShufflesUpdatesAndOutputs : initState.VALID = true ∧ State.reset.VALID = false :=
  witness_live_and_dead

theorem witness_ShuffleIfPending : initState.VALID = true ∧ State.reset.VALID = false :=
  witness_live_and_dead

theorem witness_CryptIsDripXored : initState.VALID = true ∧ State.reset.VALID = false :=
  witness_live_and_dead

/-- Equal lengths and lengths one apart, at the largest value of the field. -/
theorem witness_LengthCheckComparesAndChangesNothing :
    State.reset.LA = State.reset.LB ∧
    ({ State.reset with LA := 16777215, LB := 16777214 } : State).LA ≠
      ({ State.reset with LA := 16777215, LB := 16777214 } : State).LB := by decide

theorem witness_StepKeepsTheInvariant : Inv (hostWord 0x36000000 initState) ∧
    ∃ t, step (hostWord 0x36000000 initState) = .next t :=
  ⟨⟨initState_inv.canonical, fun _ => ⟨initState_permuted, by decide, by decide⟩,
    fun h => Bool.noConfusion (h : true = false)⟩, _, rfl⟩

/-- One word for each of the three clauses. -/
theorem witness_OnlyInitAndZeroizeChangeValid :
    (∃ t, acceptCommand 0x01000000 State.reset = .next t ∧ decode 0x01000000 = .command .init) ∧
    (∃ t, acceptCommand 0x30000000 initState = .next t ∧ decode 0x30000000 = .command .zeroize) ∧
    ∃ t, acceptCommand 0x36000000 initState = .next t ∧ decode 0x36000000 ≠ .command .init ∧
      decode 0x36000000 ≠ .command .zeroize :=
  ⟨⟨_, rfl, by decide⟩, ⟨_, rfl, by decide⟩, ⟨_, rfl, by decide, by decide⟩⟩

theorem witness_CommandsWriteOnlyTheirRow : ∃ t, exec .output initState = .next t ∧
    mayWriteArray Instr.output.mnemonic = false := ⟨_, rfl, rfl⟩

/-- Two contexts that differ in `S` and `K`, and one command answered on both. -/
theorem witness_OnlyOutputDripAndCryptRevealTheContext :
    Instr.cmpr.mnemonic ∉ ([.OUTPUT, .DRIP, .CRYPT] : List Mnemonic) ∧
    (fragment [(1, 1)]).VALID = ({ fragment [(2, 1)] with K := 7 } : State).VALID ∧
    (fragment [(1, 1)]).CACC = ({ fragment [(2, 1)] with K := 7 } : State).CACC ∧
    (∃ t, exec .cmpr (fragment [(1, 1)]) = .next t ∧ t.responses = [] ++ [0x0000]) ∧
    ∃ t, exec .cmpr { fragment [(2, 1)] with K := 7 } = .next t ∧ t.responses = [] ++ [0x0000] :=
  ⟨by decide, rfl, rfl, ⟨_, rfl, rfl⟩, ⟨_, rfl, rfl⟩⟩

/-- Two states that differ in the scratch registers. -/
theorem witness_ScratchRegistersAreUnobservable :
    KeepsArray initState { initState with T1 := 9, T2 := 4 } ∧
    KeepsRegisters [.T1, .T2] initState { initState with T1 := 9, T2 := 4 } ∧
    (∃ t, exec .cmpr initState = .next t ∧ t.responses = initState.responses ++ [0x0000]) ∧
    ∃ t, exec .cmpr { initState with T1 := 9, T2 := 4 } = .next t ∧
      t.responses = initState.responses ++ [0x0000] := by
  refine ⟨fun _ => rfl, fun r hr => ?_, ⟨_, rfl, rfl⟩, ⟨_, rfl, rfl⟩⟩
  cases r <;> first | rfl | simp at hr

theorem witness_EmptyNonceEqualsPlainSetup :
    ([0x41, 0x42, 0x43] : List Byte) ≠ [] ∧ ([0x41, 0x42, 0x43] : List Byte).length % 64 ≠ 0 := by decide

theorem witness_CryptStopsOnLengthMismatch : ([0x53] : List Byte).length < 2 ^ 24 ∧ 2 ^ 24 - 1 < 2 ^ 24 ∧
    ([0x53] : List Byte).length ≠ 2 ^ 24 - 1 := by decide

theorem witness_CryptRoundTrip : ([0x53, 0x70] : List Byte).length < 2 ^ 24 := by decide

theorem witness_CryptContinuesAcrossBuffers : initState.VALID = true ∧
    (([0x53] : List Byte) ++ [0x70]).length < 2 ^ 24 := ⟨rfl, by decide⟩

theorem witness_HashUpdateIsChunkingInvariant : initState.VALID = true := rfl

theorem witness_RandomWordIsFourDripsLittleEndian : initState.VALID = true := rfl

/-- The boundary 1 and 2 of the bound; a first word of 0 (an array of zeros), accepted for the bound 2,
whose bias is 0, and rejected for the bound 3, whose bias is 1 (V-RND-3); and no context. -/
theorem witness_UniformSamplesAreBelowTheBound : (1 : Word32).toNat < 2 ∧ 2 ≤ (2 : Word32).toNat ∧
    (fragment []).VALID = true ∧ State.reset.VALID = false ∧
    (∃ t, drawRandom32 (fragment []) = some (t, .word 0)) ∧
    2 ^ 32 % (2 : Word32).toNat ≤ (0 : Word32).toNat ∧ (0 : Word32).toNat < 2 ^ 32 % (3 : Word32).toNat ∧
    ∃ t, random32Uniform 1 2 (fragment []) = some (t, .value 0) :=
  ⟨by decide, by decide, rfl, rfl, ⟨_, rfl⟩, by decide, by decide, _, rfl⟩

/-- Unequal lengths, and equal lengths with equal and with unequal bytes. -/
theorem witness_CompareTellsEqualBuffers : ([0x61] : List Byte).length < 2 ^ 24 ∧
    ([0x61] : List Byte).length ≠ ([] : List Byte).length ∧
    ([0x61] : List Byte).length = ([0x62] : List Byte).length ∧ ([0x61] : List Byte) ≠ [0x62] := by decide

/-- An idle port offered a word and offered none, ports with a cycle and with none left, and a port
presenting a response. -/
theorem witness_PortHoldsOneCommandAtATime :
    (PortInputs.mk false true 0x36000000 false).rst = false ∧
    (PortInputs.mk false false 0x36000000 true).rst = false ∧
    (PortInputs.mk false false 0x36000000 true).cmd_valid = false ∧
    (Port.mk State.reset .idle).cmd_ready = true ∧
    (Port.mk State.reset (.executing 0x36000000 1)).phase = .executing 0x36000000 1 ∧
    (Port.mk State.reset (.executing 0x36000000 0)).cmd_ready = false ∧
    (Port.mk State.reset (.responding 0x36000000 0x0000)).cmd_ready = false ∧
    (Port.mk State.reset (.responding 0x36000000 0x0000)).rsp_valid = true := by decide

theorem witness_PortResetAbandonsEverything : (PortInputs.mk true true 0x36000000 true).rst = true := rfl

theorem witness_PortAnswersEveryAcceptedWord : (Port.mk initState .idle).cmd_ready = true ∧
    (PortInputs.mk false true 0x04000000 false).rst = false ∧
    (PortInputs.mk false true 0x04000000 false).cmd_valid = true := ⟨rfl, rfl, rfl⟩

theorem witness_PortRefinesTheStep : State.reset.host = [] ∧
    (Port.mk State.reset .idle).agrees State.reset :=
  ⟨rfl, fun _ => rfl, fun _ _ => rfl, rfl, rfl⟩

end Sys2Proof.Tests
end

/-! SUPPORT. The state after reset, after `INIT` and after `ZEROIZE` (spec/10_state.md R35): the laws of
the three, then the statement. -/

namespace Sys2Proof.Machine

@[simp] theorem State.reset_read (v : Byte) : State.reset.S.read v = 0 := rfl

@[simp] theorem State.reset_value (r : RegName) : State.reset.value r = 0 := by cases r <;> rfl

@[simp] theorem resetMove_read (s : State) (v : Byte) : (resetMove s).S.read v = 0 := rfl

@[simp] theorem resetMove_value (s : State) (r : RegName) : (resetMove s).value r = 0 := by
  cases r <;> rfl

@[simp] theorem respond_value (s : State) (st : Status) (data : Byte) (r : RegName) :
    (s.respond st data).value r = s.value r :=
  (KeepsRegisters.refl [] s).respond st data r List.not_mem_nil

/-- `INIT` writes the registers of the context and no other (spec/40_permutation_core.md R100). -/
theorem init_frame {s t : State} (h : exec .init s = .next t) :
    KeepsRegisters [.I, .J, .K, .Z, .A, .W, .VALID] s t := by
  obtain ⟨u, hu, -, -, -, -, -, -, -, -, -, hT1, hT2, hLA, hLB, hCACC, -⟩ := exec_init s
  obtain rfl : u = t := Host.Outcome.next.inj (hu.symm.trans h)
  intro r hr
  cases r with
  | T1 => exact congrArg BitVec.toNat hT1
  | T2 => exact congrArg BitVec.toNat hT2
  | LA => exact congrArg BitVec.toNat hLA
  | LB => exact congrArg BitVec.toNat hLB
  | CACC => exact congrArg BitVec.toNat hCACC
  | I | J | K | Z | A | W | VALID => exact absurd (by decide) hr

/-- Settles O18: the reset state by its laws, `INIT` by what it writes and its frame, and `ZEROIZE` because
it is the reset, answered. -/
theorem resetIsAllZero : Obligations.ResetIsAllZero := by
  refine ⟨State.reset_read, State.reset_value, ?_, fun s => ⟨_, exec_zeroize s, ?_, ?_⟩⟩
  · obtain ⟨t, ht, -, hS, hI, hJ, hK, hZ, hA, hW, hV, -⟩ := exec_init State.reset
    have hread : ∀ v : Byte, t.S.read v = v := fun v => by rw [hS, read_fill]
    exact ⟨t, ht, hread, hI, hJ, hK, hZ, hA, hW, hV, init_frame ht⟩
  · intro v
    rw [respond_S, resetMove_read, State.reset_read]
  · intro r
    rw [respond_value, resetMove_value, State.reset_value]

end Sys2Proof.Machine

/-! SUPPORT. The encoding family (spec/30_encoding.md R73, R76, R77): which words are illegal, how a command
ends in each case of the decode order, and the response word it ends with; then the three statements. -/

namespace Sys2Proof

theorem op_injective : Function.Injective Mnemonic.op := fun m m' h =>
  Option.some.inj (by rw [← ofOp_op m, h, ofOp_op])

/-- R76: a word is illegal exactly when its opcode is no command's, or a reserved bit of the command's format
is 1. The two exclude each other because no two commands share an opcode. -/
theorem decode_illegal_iff {w : Word32} : (∃ why, decode w = .illegal why) ↔
    ((∀ m : Mnemonic, opField w ≠ m.op) ∨
      ∃ m : Mnemonic, opField w = m.op ∧ argField w &&& m.format.reserved ≠ 0) := by
  cases hd : decode w with
  | command i =>
    obtain ⟨m, hop, hreserved, -⟩ := decode_eq_command.1 hd
    refine iff_of_false (by simp) ?_
    rintro (hnone | ⟨m', hop', hset⟩)
    · exact hnone m hop
    · obtain rfl : m = m' := op_injective (hop.symm.trans hop')
      exact hset hreserved
  | illegal why =>
    refine iff_of_true ⟨why, rfl⟩ ?_
    by_cases hm : ∃ m : Mnemonic, opField w = m.op
    · obtain ⟨m, hop⟩ := hm
      refine .inr ⟨m, hop, fun hreserved => ?_⟩
      have hlegal := decode_eq_command.2 ⟨m, hop, hreserved, rfl⟩
      simp [hd] at hlegal
    · exact .inl (not_exists.1 hm)

end Sys2Proof

namespace Sys2Proof.Machine

/-! ### The two fields of a response word (R73) -/

@[simp] theorem statusField_responseWord (st : Status) (d : Byte) : statusField (responseWord st d) = st.code :=
  BitVec.extractLsb'_append_eq_left

@[simp] theorem dataField_responseWord (st : Status) (d : Byte) : dataField (responseWord st d) = d :=
  BitVec.extractLsb'_append_eq_right

theorem code_eq_zero_iff {st : Status} : st.code = 0x00 ↔ st = .ok := by cases st <;> decide

theorem code_one_of_four (st : Status) : st.code = 0x00 ∨ st.code = 0x01 ∨ st.code = 0x02 ∨ st.code = 0x03 := by
  cases st <;> decide

/-! ### The byte a completed command returns -/

/-- The data byte of the command `i` when it completes from `s` in `t` (R73): the new `Z` for `OUTPUT` and
`DRIP`, combined with the operand for `CRYPT`; the folded accumulator for `CMPR`; nothing for the others. -/
def byteResult (i : Instr) (s t : State) : Byte :=
  match i with
  | .output | .drip => t.Z
  | .crypt d => d ^^^ t.Z
  | .cmpr => foldAccumulator s.CACC
  | _ => 0x00

@[simp] theorem byteResult_respond (i : Instr) (s t : State) (st : Status) (data : Byte) :
    byteResult i s (t.respond st data) = byteResult i s t := rfl

theorem byteResult_eq_zero {i : Instr} (h : i.mnemonic ∉ [.OUTPUT, .DRIP, .CRYPT, .CMPR]) (s t : State) :
    byteResult i s t = 0x00 := by
  cases i with
  | output | drip | crypt _ | cmpr => exact absurd (by simp [Instr.mnemonic]) h
  | _ => rfl

theorem foldAccumulator_eq (c : Byte) : foldAccumulator c = if c = 0 then 0x00 else 0x01 := by
  revert c; decide

/-! ### A command in each case of the decode order (R77) -/

/-- A command that needs a context is its body behind the gate, answered with its byte result; the body leaves
the host's side of the state alone. -/
theorem exec_gated {i : Instr} (hneeds : i.mnemonic.needsValid = true) (s : State) :
    ∃ body : State → State, KeepsInterface s (body s) ∧
      exec i s = whenLive s fun s => (body s).respond .ok (byteResult i s (body s)) := by
  cases i with
  | swap x y => exact ⟨_, swap_interface x y s, exec_swap x y s⟩
  | update => exact ⟨_, update_interface s, exec_update s⟩
  | whip => exact ⟨_, whip_interface s, exec_whip s⟩
  | crush => exact ⟨_, crush_interface s, exec_crush s⟩
  | shuffle => exact ⟨_, shuffle_interface s, exec_shuffle s⟩
  | absn n => exact ⟨_, absorbNibble_interface n s, exec_absn n s⟩
  | absb b => exact ⟨_, absorbByte_interface b s, exec_absb b s⟩
  | abss => exact ⟨_, absorbStop_interface s, exec_abss s⟩
  | output => exact ⟨_, output_interface s, exec_output s⟩
  | drip => exact ⟨_, drip_interface s, exec_drip s⟩
  | shufp => exact ⟨_, shuffleIfPending_interface s, exec_shufp s⟩
  | crypt d => exact ⟨_, drip_interface s, exec_crypt d s⟩
  | init | zeroize | setla _ | setlb _ | lchk | cmpz | cmpa _ _ | cmpr => exact Bool.noConfusion hneeds

/-- Case 2: a command that needs a context is refused while there is none. -/
theorem exec_of_dead {i : Instr} {s : State} (hneeds : i.mnemonic.needsValid = true) (hdead : s.VALID = false) :
    exec i s = .next (s.raise .notInitialised) := by
  obtain ⟨body, -, hexec⟩ := exec_gated hneeds s
  exact hexec.trans (whenLive_of_dead hdead _)

/-- Case 4: a command that neither lacks its context nor finds the lengths unequal completes with `OK` and its
byte result. -/
theorem exec_completes {i : Instr} {s : State} (hlive : i.mnemonic.needsValid = true → s.VALID = true)
    (hlen : i = .lchk → s.LA = s.LB) :
    ∃ t, Completes i s t (responseWord .ok (byteResult i s t)) := by
  by_cases hneeds : i.mnemonic.needsValid = true
  · obtain ⟨body, hkeeps, hexec⟩ := exec_gated hneeds s
    refine ⟨_, hexec.trans (whenLive_of_live (hlive hneeds) _), ?_⟩
    rw [byteResult_respond]
    exact hkeeps.respond .ok _
  · cases i with
    | init | setla _ | setlb _ | cmpz | cmpa _ _ | cmpr => exact ⟨_, rfl, rfl, rfl⟩
    | zeroize => exact ⟨_, exec_zeroize s, rfl, rfl⟩
    | lchk => exact ⟨_, exec_lchk_of_eq (hlen rfl), rfl, rfl⟩
    | _ => exact absurd rfl hneeds

/-! ### A command word, by the status the decode order gives it -/

theorem statusOf_of_illegal {w : Word32} {why : Illegal} (h : decode w = .illegal why) (s : State) :
    statusOf w s = .illegalCommand := by simp [statusOf, h]

theorem statusOf_of_command {w : Word32} {i : Instr} (h : decode w = .command i) (s : State) :
    statusOf w s = if i.mnemonic.needsValid && !s.VALID then .notInitialised
      else if i = .lchk ∧ s.LA ≠ s.LB then .lengthMismatch else .ok := by simp [statusOf, h]

/-- A word either is refused, its status and data 0x00 being all that changes, or is a command that completes
with `OK` and its byte result. -/
theorem acceptCommand_by_status (w : Word32) (s : State) :
    (statusOf w s ≠ .ok ∧ acceptCommand w s = .next (s.raise (statusOf w s))) ∨
    ∃ i t, statusOf w s = .ok ∧ decode w = .command i ∧ acceptCommand w s = .next t ∧
      Responds (responseWord .ok (byteResult i s t)) s t := by
  cases hd : decode w with
  | illegal why =>
    rw [statusOf_of_illegal hd]
    exact .inl ⟨by decide, acceptCommand_of_illegal hd s⟩
  | command i =>
    rw [statusOf_of_command hd, acceptCommand_of_command hd]
    split
    next hdead =>
      simp only [Bool.and_eq_true, Bool.not_eq_true'] at hdead
      exact .inl ⟨by decide, exec_of_dead hdead.1 hdead.2⟩
    next hlive =>
      split
      next hne =>
        obtain ⟨rfl, hne⟩ := hne
        exact .inl ⟨by decide, exec_lchk_of_ne hne⟩
      next hlen =>
        obtain ⟨t, ht, hresp⟩ := exec_completes (i := i) (s := s) (by simpa using hlive) (by simpa using hlen)
        exact .inr ⟨i, t, rfl, rfl, ht, hresp⟩

/-- The response word read back from the responses of the state a word leads to. -/
theorem response_by_status {w : Word32} {s t : State} {r : Word16} (ht : acceptCommand w s = .next t)
    (hr : t.responses = s.responses ++ [r]) :
    (statusOf w s ≠ .ok ∧ r = responseWord (statusOf w s) 0x00 ∧ t = s.receive r) ∨
    ∃ i, statusOf w s = .ok ∧ decode w = .command i ∧ r = responseWord .ok (byteResult i s t) := by
  rcases acceptCommand_by_status w s with ⟨hst, hu⟩ | ⟨i, u, hst, hd, hu, -, hresp⟩
  all_goals obtain rfl : _ = t := Host.Outcome.next.inj (hu.symm.trans ht)
  · obtain rfl : responseWord (statusOf w s) 0x00 = r := by simpa [raise_eq] using hr
    exact .inl ⟨hst, rfl, rfl⟩
  · exact .inr ⟨i, hst, hd, by simpa [hresp] using hr.symm⟩

/-! ### The statements -/

/-- Settles O4: the illegal words by the decoder's law, the answer by what an illegal word does. -/
theorem illegalWordsAreAnsweredAndChangeNothing : Obligations.IllegalWordsAreAnsweredAndChangeNothing := by
  refine ⟨fun _ => decode_illegal_iff, fun _ _ s h => acceptCommand_of_illegal h s, ?_, by decide⟩
  simp only [List.forall_mem_cons]
  exact ⟨⟨_, rfl⟩, ⟨_, rfl⟩, ⟨_, rfl⟩, ⟨_, rfl⟩, ⟨_, rfl⟩, by simp⟩

/-- Settles O12: one lemma for each of the four cases of R77. -/
theorem statusFollowsTheDecodeOrder : Obligations.StatusFollowsTheDecodeOrder := by
  refine fun w s => ⟨fun why h => acceptCommand_of_illegal h s, fun i hd hneeds hdead => ?_,
    fun hd hne => ?_, fun i hd hlive hlen => ?_⟩
  · exact (acceptCommand_of_command hd s).trans (exec_of_dead hneeds hdead)
  · exact (acceptCommand_of_command hd s).trans (exec_lchk_of_ne hne)
  · obtain ⟨t, ht, -, hresp⟩ := exec_completes hlive hlen
    exact ⟨t, _, (acceptCommand_of_command hd s).trans ht, hresp⟩

/-- Settles O17: the response is that of a refusal, with data 0x00, or of a completed command, with its byte
result. -/
theorem dataByteOnlyFromFourCommands : Obligations.DataByteOnlyFromFourCommands := by
  refine ⟨fun st d => ⟨statusField_responseWord st d, dataField_responseWord st d⟩, fun w s t r ht hr => ?_⟩
  rcases response_by_status ht hr with ⟨hst, rfl, -⟩ | ⟨i, -, hd, rfl⟩
  · rw [statusField_responseWord, dataField_responseWord]
    exact ⟨code_one_of_four _, fun _ => rfl, fun _ _ _ => rfl, fun hok => absurd (code_eq_zero_iff.1 hok) hst⟩
  · simp only [statusField_responseWord, dataField_responseWord, hd, Decoded.command.injEq]
    refine ⟨.inl rfl, absurd rfl, ?_, fun _ => ⟨?_, ?_, ?_, ?_⟩⟩
    · rintro _ rfl hother
      exact byteResult_eq_zero hother s t
    · rintro rfl; rfl
    · rintro rfl; rfl
    · rintro d rfl; rfl
    · rintro rfl; exact foldAccumulator_eq s.CACC

end Sys2Proof.Machine

/-! SUPPORT. The permutation core family (spec/40_permutation_core.md R100 to R106, spec/10_state.md R21): how a
command ends on a live context, what its response and a second run of it leave of the relations of the bodies,
and what any command keeps; then the eight statements. -/

namespace Sys2Proof

/-- A word of format P assembled by shifts and ORs (spec/30_encoding.md R74, R78). -/
theorem append_P (op x y : Byte) : (op ++ ((0 : Byte) ++ x ++ y) : Word32) =
    op.setWidth 32 <<< 24 ||| x.setWidth 32 <<< 8 ||| y.setWidth 32 := by
  rw [← BitVec.setWidth_eq (op ++ _), BitVec.setWidth_append_eq_shiftLeft_setWidth_or,
    BitVec.setWidth_append_append_eq_shiftLeft_setWidth_or]
  simp [BitVec.or_assoc]

end Sys2Proof

namespace Sys2Proof.Machine

/-! ### The relations of the bodies: entries and registers kept -/

theorem Exchanged.symm {x y : Byte} {s t : State} (h : Exchanged x y s t) : Exchanged y x s t := by
  intro a
  rw [h a]
  by_cases hx : a = x <;> by_cases hy : a = y <;> simp_all

theorem Exchanged.keepsArray {x y : Byte} {s t : State} (h : Exchanged x y s t) (hxy : x = y) :
    KeepsArray s t := by
  subst hxy
  intro a
  rw [h a]
  split
  next ha => rw [ha]
  next => rfl

/-- Exchanging the same two entries again puts every entry back (R101). -/
theorem Exchanged.restores {x y : Byte} {s t u : State} (h : Exchanged x y s t) (k : Exchanged x y t u) :
    KeepsArray s u := by
  intro a
  rw [k a, h y, h x, h a]
  by_cases hx : a = x <;> by_cases hy : a = y <;> simp_all

/-- Of two frames of the same move, only the registers in both lists are left open. -/
theorem KeepsRegisters.inter {l l' m : List RegName} {s t : State} (h : KeepsRegisters l s t)
    (k : KeepsRegisters l' s t) (hm : ∀ r ∈ l, r ∈ l' → r ∈ m) : KeepsRegisters m s t := by
  intro r hr
  by_cases hl : r ∈ l
  · exact k r fun hl' => hr (hm r hl hl')
  · exact h r hl

/-- A register shown to hold its value leaves the list of a frame. -/
theorem KeepsRegisters.of_cons {q : RegName} {l : List RegName} {s t : State}
    (h : KeepsRegisters (q :: l) s t) (hq : t.value q = s.value q) : KeepsRegisters l s t := by
  intro r hr
  by_cases hrq : r = q
  · rw [hrq, hq]
  · exact h r (by simp [hrq, hr])

theorem setLA_frame (s : State) (len : Word24) : KeepsRegisters [.LA] s (s.setLA len) := by
  intro r hr; cases r <;> simp_all [State.value]

theorem setLB_frame (s : State) (len : Word24) : KeepsRegisters [.LB] s (s.setLB len) := by
  intro r hr; cases r <;> simp_all [State.value]

theorem setCACC_frame (s : State) (v : Byte) : KeepsRegisters [.CACC] s (s.setCACC v) := by
  intro r hr; cases r <;> simp_all [State.value]

theorem absorbByte_frame (b : Byte) (s : State) :
    KeepsRegisters [.I, .J, .K, .A, .W, .T1, .T2] s (absorbByte b s) := by
  rw [absorbByte_eq]
  exact (absorbNibble_frame _ s).trans (absorbNibble_frame _ _)

/-! ### A response changes nothing the relations speak of -/

theorem Updated.respond {s t : State} (h : Updated s t) (st : Status) (d : Byte) :
    Updated s (t.respond st d) :=
  ⟨h.walkI, h.walkJ, h.walkK, h.array, h.frame.respond st d⟩

theorem Whipped.respond {s t : State} (h : Whipped s t) (st : Status) (d : Byte) :
    Whipped s (t.respond st d) := by
  obtain ⟨u, h0, hchain, harray, hW, hframe⟩ := h
  exact ⟨u, h0, hchain, harray, hW, hframe.respond st d⟩

theorem Crushed.respond {s t : State} (h : Crushed s t) (st : Status) (d : Byte) :
    Crushed s (t.respond st d) :=
  ⟨h.lower, h.upper, h.frame.respond st d⟩

theorem Shuffled.respond {s t : State} (h : Shuffled s t) (st : Status) (d : Byte) :
    Shuffled s (t.respond st d) := by
  obtain ⟨a, b, c, e, f, h1, h2, h3, h4, h5, harray, hA, hframe⟩ := h
  exact ⟨a, b, c, e, f, h1, h2, h3, h4, h5, harray, hA, hframe.respond st d⟩

/-! ### Crush (R104) -/

/-- Of the two members of a pair one is below 128. -/
theorem pair_cases (a : Byte) : a.toNat < 128 ∨ ∃ v : Byte, v.toNat < 128 ∧ a = 255 - v := by
  by_cases h : a.toNat < 128
  · exact .inl h
  · exact .inr ⟨255 - a, by bv_omega, by bv_omega⟩

theorem Crushed.ordered {s t : State} (h : Crushed s t) {v : Byte} (hv : v.toNat < 128) :
    (t.S.read v).toNat ≤ (t.S.read (255 - v)).toNat := by
  rw [h.lower v hv, h.upper v hv]
  exact min_le_max

/-- On a permutation no pair holds equal bytes, so its order is strict. -/
theorem Crushed.strictly_ordered {s t : State} (h : Crushed s t) (hp : t.permuted) {v : Byte}
    (hv : v.toNat < 128) : t.S.read v < t.S.read (255 - v) := by
  have hne : t.S.read v ≠ t.S.read (255 - v) := fun heq => by
    have : v = 255 - v := hp.injective heq
    bv_omega
  have hle := h.ordered hv
  bv_omega

/-- A crush of an array that is already crushed moves nothing. -/
theorem Crushed.keepsArray_again {s t u : State} (h : Crushed s t) (k : Crushed t u) : KeepsArray t u := by
  intro a
  apply BitVec.eq_of_toNat_eq
  rcases pair_cases a with ha | ⟨v, hv, rfl⟩
  · rw [k.lower a ha, min_eq_left (h.ordered ha)]
  · rw [k.upper v hv, max_eq_right (h.ordered hv)]

/-! ### The registers a whip and a shuffle leave where they were (R103, R105) -/

/-- A whip brings `I` back, so of the registers it may write `I` keeps its value. -/
theorem whip_net_frame (s : State) : KeepsRegisters [.J, .K, .W, .T1, .T2] s (whip s) :=
  (whip_frame s).of_cons (congrArg BitVec.toNat (whip_I s))

theorem shuffle_net_frame (s : State) : KeepsRegisters [.J, .K, .A, .W, .T1, .T2] s (shuffle s) :=
  (shuffle_frame s).of_cons (congrArg BitVec.toNat (shuffle_I s))

/-- Adding 2 keeps a byte odd, past 255 as well (R26, R103). -/
theorem add_two_odd {w : Byte} (h : w.toNat % 2 = 1) : (w + 2).toNat % 2 = 1 := by bv_omega

/-! ### A command of the core on a live context -/

/-- A command that is its body behind the gate completes with `OK` on a live context, its body done. -/
theorem completes_of_live {i : Instr} {body : State → State} {s : State}
    (hexec : exec i s = whenLive s fun s => (body s).respond .ok 0x00) (hkeeps : KeepsInterface s (body s))
    (hlive : s.VALID = true) : Completes i s ((body s).respond .ok 0x00) 0x0000 :=
  ⟨hexec.trans (whenLive_of_live hlive _), hkeeps.respond .ok 0x00⟩

theorem swap_completes (x y : Byte) {s : State} (hlive : s.VALID = true) :
    Completes (.swap x y) s ((swap x y s).respond .ok 0x00) 0x0000 :=
  completes_of_live (exec_swap x y s) (swap_interface x y s) hlive

theorem crush_completes {s : State} (hlive : s.VALID = true) :
    Completes .crush s ((crush s).respond .ok 0x00) 0x0000 :=
  completes_of_live (exec_crush s) (crush_interface s) hlive

/-- `INIT` completes in every state, whether or not there is a context (R100). -/
theorem init_completes (s : State) : ∃ t, Completes .init s t 0x0000 := by
  obtain ⟨t, ht, hresp, -⟩ := exec_init s
  exact ⟨t, ht, hresp⟩

/-- The context an `INIT` leaves. -/
structure InitialContext (t : State) : Prop where
  array : ∀ v : Byte, t.S.read v = v
  I : t.I = 0
  J : t.J = 0
  K : t.K = 0
  Z : t.Z = 0
  A : t.A = 0
  W : t.W = 1
  VALID : t.VALID = true

theorem init_initialContext {s t : State} (h : exec .init s = .next t) : InitialContext t := by
  obtain ⟨u, hu, -, hS, hI, hJ, hK, hZ, hA, hW, hV, -⟩ := exec_init s
  obtain rfl : u = t := Host.Outcome.next.inj (hu.symm.trans h)
  exact ⟨fun v => by rw [hS, read_fill], hI, hJ, hK, hZ, hA, hW, hV⟩

theorem InitialContext.sameContext {s t : State} (h : InitialContext s) (k : InitialContext t) :
    SameContext s t :=
  (sameContext_iff s t).2 ⟨fun a => (k.array a).trans (h.array a).symm, k.I.trans h.I.symm,
    k.J.trans h.J.symm, k.K.trans h.K.symm, k.Z.trans h.Z.symm, k.A.trans h.A.symm, k.W.trans h.W.symm,
    k.VALID.trans h.VALID.symm⟩

/-! ### What every command keeps -/

/-- What a gated command's body and every response keep, the command keeps, whichever way `VALID` is. -/
theorem gated_preserves {P : State → Prop} {i : Instr} {s t : State} {body : State → State}
    {data : State → Byte} (hexec : exec i s = whenLive s fun s => (body s).respond .ok (data s))
    (hrespond : ∀ u st d, P u → P (u.respond st d)) (hs : P s) (hbody : P (body s))
    (h : exec i s = .next t) : P t := by
  rw [hexec] at h
  cases hv : s.VALID with
  | true =>
    rw [whenLive_of_live hv] at h
    obtain rfl := Host.Outcome.next.inj h
    exact hrespond _ _ _ hbody
  | false =>
    rw [whenLive_of_dead hv] at h
    obtain rfl := Host.Outcome.next.inj h
    exact hrespond _ _ _ hs

theorem gated_permuted {i : Instr} {s t : State} {body : State → State} {data : State → Byte}
    (hexec : exec i s = whenLive s fun s => (body s).respond .ok (data s))
    (hbody : s.permuted → (body s).permuted) (hs : s.permuted) (h : exec i s = .next t) : t.permuted :=
  gated_preserves hexec (fun _ _ _ hu => hu) hs (hbody hs) h

theorem gated_frame {l : List RegName} {i : Instr} {s t : State} {body : State → State}
    {data : State → Byte} (hexec : exec i s = whenLive s fun s => (body s).respond .ok (data s))
    (hbody : KeepsRegisters l s (body s)) (h : exec i s = .next t) : KeepsRegisters l s t :=
  gated_preserves (P := KeepsRegisters l s) hexec (fun _ st d hu => hu.respond st d) (.refl l s) hbody h

/-- `LCHK` only answers, in either outcome (spec/44_utility.md R183). -/
theorem lchk_only_responds {s t : State} (h : exec .lchk s = .next t) : ∃ st, t = s.respond st 0x00 := by
  by_cases hlen : s.LA = s.LB
  · exact ⟨.ok, (Host.Outcome.next.inj ((exec_lchk_of_eq hlen).symm.trans h)).symm⟩
  · exact ⟨.lengthMismatch, (Host.Outcome.next.inj ((exec_lchk_of_ne hlen).symm.trans h)).symm⟩

/-- No command writes a register outside its row of the table (spec/10_state.md R21, R27, R29 to R31). -/
theorem exec_frame {i : Instr} {s t : State} (h : exec i s = .next t) :
    KeepsRegisters (mayWrite i.mnemonic) s t := by
  cases i with
  | init => exact init_frame h
  | swap x y => exact gated_frame (exec_swap x y s) (swap_frame x y s) h
  | update => exact gated_frame (exec_update s) (update_updated s).frame h
  | whip => exact gated_frame (exec_whip s) (whip_frame s) h
  | crush => exact gated_frame (exec_crush s) (crush_crushed s).frame h
  | shuffle => exact gated_frame (exec_shuffle s) (shuffle_frame s) h
  | absn n => exact gated_frame (exec_absn n s) (absorbNibble_frame n s) h
  | absb b => exact gated_frame (exec_absb b s) (absorbByte_frame b s) h
  | abss => exact gated_frame (exec_abss s) (absorbStop_frame s) h
  | output => exact (gated_frame (exec_output s) (output_frame s) h).mono (by decide)
  | drip => exact gated_frame (exec_drip s) (drip_frame s) h
  | shufp => exact gated_frame (exec_shufp s) (shuffleIfPending_frame s) h
  | crypt d => exact gated_frame (exec_crypt d s) (drip_frame s) h
  | zeroize => exact fun r hr => absurd (by cases r <;> decide) hr
  | setla len => cases h; exact ((setLA_frame s len).respond _ _).mono (by simp [Instr.mnemonic, mayWrite])
  | setlb len => cases h; exact ((setLB_frame s len).respond _ _).mono (by simp [Instr.mnemonic, mayWrite])
  | lchk =>
    obtain ⟨st, rfl⟩ := lchk_only_responds h
    exact (KeepsRegisters.refl _ s).respond _ _
  | cmpz => cases h; exact ((setCACC_frame s _).respond _ _).mono (by simp [Instr.mnemonic, mayWrite])
  | cmpa x y => cases h; exact ((setCACC_frame s _).respond _ _).mono (by simp [Instr.mnemonic, mayWrite])
  | cmpr => cases h; exact (KeepsRegisters.refl _ s).respond _ _

/-- No command whose row does not mark the array written changes an entry (R21). -/
theorem exec_keepsArray {i : Instr} {s t : State} (hrow : mayWriteArray i.mnemonic = false)
    (h : exec i s = .next t) : KeepsArray s t := by
  cases i with
  | output =>
    exact gated_preserves (P := KeepsArray s) (exec_output s) (fun _ _ _ hu => hu) (fun _ => rfl)
      (fun _ => rfl) h
  | setla _ | setlb _ | cmpz | cmpa _ _ | cmpr => cases h; exact fun _ => rfl
  | lchk =>
    obtain ⟨st, rfl⟩ := lchk_only_responds h
    exact fun _ => rfl
  | init | swap _ _ | update | whip | crush | shuffle | absn _ | absb _ | abss | drip | shufp
  | crypt _ | zeroize =>
    exact Bool.noConfusion hrow

/-! ### The statements -/

/-- Settles O19: both `INIT`s leave the same context, and no register outside it is written. -/
theorem initCreatesTheContext : Obligations.InitCreatesTheContext := by
  refine ⟨rfl, fun s => ?_⟩
  obtain ⟨t, ht⟩ := init_completes s
  obtain ⟨u, hu⟩ := init_completes t
  have hc := init_initialContext ht.1
  have hagain := hc.sameContext (init_initialContext hu.1)
  exact ⟨t, ht, hc.array, hc.I, hc.J, hc.K, hc.Z, hc.A, hc.W, hc.VALID, init_frame ht.1, u, hu, hagain.1,
    hagain.2.inter (init_frame hu.1) (by decide)⟩

/-- Settles O20: the exchange of the body, and the same exchange a second time, in either order. -/
theorem swapExchangesTwoEntries : Obligations.SwapExchangesTwoEntries := by
  refine fun x y s => ⟨append_P 0x02 x y, exec_of_dead rfl, fun hlive => ?_⟩
  have hex : Exchanged x y s (swap x y s) := swap_exchanged x y s
  refine ⟨_, swap_completes x y hlive, hex, (swap_frame x y s).respond _ _, hex.permuted, hex.keepsArray,
    ⟨_, swap_completes x y hlive, ?_⟩, ⟨_, swap_completes y x hlive, ?_⟩⟩
  · exact hex.restores (swap_exchanged x y _)
  · exact hex.restores (swap_exchanged y x _).symm

/-- Settles O21: the body's four statements; with `I` and `J` equal its exchange moves nothing. -/
theorem updateIsOneWalkStep : Obligations.UpdateIsOneWalkStep := by
  refine ⟨rfl, fun s => ⟨exec_of_dead rfl, fun hlive => ?_⟩⟩
  have hu := (update_updated s).respond .ok 0x00
  exact ⟨_, completes_of_live (exec_update s) (update_interface s) hlive, hu, hu.array.keepsArray⟩

/-- Settles O22: the body's chain of updates, over which `I` moves by 512 times `W`, which is nothing. -/
theorem whipIsFiveHundredTwelveUpdates : Obligations.WhipIsFiveHundredTwelveUpdates := by
  refine ⟨rfl, fun s => ⟨exec_of_dead rfl, fun hlive => ?_⟩⟩
  have hW : ((whip s).respond .ok 0x00).W = s.W + 2 := by rw [respond_W, whip_W]
  refine ⟨_, completes_of_live (exec_whip s) (whip_interface s) hlive, (whip_whipped s).respond _ _, ?_, hW,
    fun hodd => ?_, fun h255 => ?_, (whip_net_frame s).respond _ _⟩
  · rw [respond_I, whip_I]
  · rw [hW]; exact add_two_odd hodd
  · rw [hW, h255]; rfl

/-- Settles O23: the body sorts the pairs; on a permutation strictly, and sorted pairs stay. -/
theorem crushSortsEachPair : Obligations.CrushSortsEachPair := by
  refine ⟨rfl, fun s => ⟨exec_of_dead rfl, fun hlive => ?_⟩⟩
  have hc := (crush_crushed s).respond .ok 0x00
  have hlive' : ((crush s).respond .ok 0x00).VALID = true := by
    rw [respond_VALID, (crush_interface s).VALID, hlive]
  refine ⟨_, crush_completes hlive, hc, fun hp v hv => hc.strictly_ordered ?_ hv, _, crush_completes hlive',
    hc.keepsArray_again ((crush_crushed _).respond _ _)⟩
  exact permuted_of_reads (respond_sameContext _ _ _).1 (crush_permuted hp)

/-- Settles O24: the body's chain of whips and crushes. -/
theorem shuffleIsThreeWhipsAndTwoCrushes : Obligations.ShuffleIsThreeWhipsAndTwoCrushes := by
  refine ⟨rfl, fun s => ⟨exec_of_dead rfl, fun hlive => ?_⟩⟩
  exact ⟨_, completes_of_live (exec_shuffle s) (shuffle_interface s) hlive, (shuffle_shuffled s).respond _ _,
    by rw [respond_A, shuffle_A], by rw [respond_W, shuffle_W], (shuffle_net_frame s).respond _ _⟩

/-- Settles O25: `INIT` leaves the identity, and each other body keeps a permutation. -/
theorem coreCommandsKeepThePermutation : Obligations.CoreCommandsKeepThePermutation := by
  intro i s t hcore hs h
  cases i with
  | init =>
    have hid : t.S.read = id := funext (init_initialContext h).array
    show Function.Bijective t.S.read
    rw [hid]
    exact Function.bijective_id
  | swap x y => exact gated_permuted (exec_swap x y s) (swap_permuted x y) (hs nofun) h
  | update => exact gated_permuted (exec_update s) update_permuted (hs nofun) h
  | whip => exact gated_permuted (exec_whip s) whip_permuted (hs nofun) h
  | crush => exact gated_permuted (exec_crush s) crush_permuted (hs nofun) h
  | shuffle => exact gated_permuted (exec_shuffle s) shuffle_permuted (hs nofun) h
  | _ => exact absurd hcore (by simp [Instr.mnemonic])

/-- Settles O41: the frame of each command, for the registers and for the array. -/
theorem commandsWriteOnlyTheirRow : Obligations.CommandsWriteOnlyTheirRow :=
  fun _ _ _ h => ⟨exec_frame h, fun hrow => exec_keepsArray hrow h⟩

end Sys2Proof.Machine

/-! SUPPORT. The absorb and squeeze family (spec/41_absorb_squeeze.md R120 to R124): the words of one operand,
how a command that returns a byte ends on a live context, and what each body adds to its conditional shuffle;
then the five statements. -/

namespace Sys2Proof

/-- A word whose one operand stands in the low bits of `arg`, the bits above it zero, assembled by a shift and
an OR: formats Q and B (spec/30_encoding.md R74, R78). -/
theorem append_zeros (op : Byte) {k n : Nat} (v : BitVec n) : (op ++ ((0 : BitVec k) ++ v)).setWidth 32 =
    op.setWidth 32 <<< (k + n) ||| v.setWidth 32 := by
  rw [BitVec.setWidth_append_eq_shiftLeft_setWidth_or, BitVec.setWidth_append_eq_shiftLeft_setWidth_or]
  simp

theorem encode_absn (n : Nibble) : encode (.absn n) = (0x10000000 : Word32) ||| n.setWidth 32 :=
  (BitVec.setWidth_eq _).symm.trans (append_zeros 0x10 n)

theorem encode_absb (b : Byte) : encode (.absb b) = (0x11000000 : Word32) ||| b.setWidth 32 :=
  (BitVec.setWidth_eq _).symm.trans (append_zeros 0x11 b)

end Sys2Proof

namespace Sys2Proof.Machine

/-! ### The nibbles of a byte (R121, spec/00_scope.md R7) -/

theorem lowNibble_eq (b : Byte) : lowNibble b = BitVec.ofNat 4 (b.toNat % 16) :=
  BitVec.eq_of_toNat_eq (by simp [lowNibble])

theorem highNibble_eq (b : Byte) : highNibble b = BitVec.ofNat 4 (b.toNat / 16) :=
  BitVec.eq_of_toNat_eq (by simp [highNibble, Nat.shiftRight_eq_div_pow])

/-! ### A response changes no entry -/

theorem KeepsArray.respond {s t : State} (h : KeepsArray s t) (st : Status) (d : Byte) :
    KeepsArray s (t.respond st d) := h

theorem Exchanged.respond {x y : Byte} {s t : State} (h : Exchanged x y s t) (st : Status) (d : Byte) :
    Exchanged x y s (t.respond st d) := h

/-! ### Commands on a live context -/

/-- A command that returns the byte its body leaves in `Z` completes with it on a live context. -/
theorem completes_with_Z_of_live {i : Instr} {body : State → State} {s : State}
    (hexec : exec i s = whenLive s fun s => (body s).respond .ok (body s).Z)
    (hkeeps : KeepsInterface s (body s)) (hlive : s.VALID = true) :
    Completes i s ((body s).respond .ok (body s).Z) ((0x00 : Byte) ++ (body s).Z) :=
  ⟨hexec.trans (whenLive_of_live hlive _), hkeeps.respond .ok _⟩

theorem absn_completes (n : Nibble) {s : State} (hlive : s.VALID = true) :
    Completes (.absn n) s ((absorbNibble n s).respond .ok 0x00) 0x0000 :=
  completes_of_live (exec_absn n s) (absorbNibble_interface n s) hlive

/-! ### The conditional shuffles -/

/-- After the shuffle of a saturated counter the counter is an index of the lower half (R120, R126). -/
theorem shuffleIfSaturated_A_le {s : State} (h : s.A.toNat ≤ 128) :
    (shuffleIfSaturated s).A.toNat ≤ 127 := by
  rw [shuffleIfSaturated_A]
  split
  next => decide
  next hne => bv_omega

/-- The pending test `a > 0` of R124 as a statement about the counter's number. -/
theorem shuffleIfPending_shuffledWhen_pos (s : State) :
    ShuffledWhen (0 < s.A.toNat) s (shuffleIfPending s) := by
  have hpos : 0 < s.A.toNat ↔ s.A ≠ 0x00 := BitVec.pos_iff_ne_zero s.A
  rw [hpos]
  exact shuffleIfPending_shuffledWhen s

/-! ### What a body adds to its conditional shuffle -/

theorem absorbNibble_exchanged (n : Nibble) (s : State) :
    Exchanged (shuffleIfSaturated s).A (nibbleTarget n) (shuffleIfSaturated s) (absorbNibble n s) := by
  rw [absorbNibble_eq]
  exact swap_exchanged _ _ _

@[simp] theorem absorbNibble_A (n : Nibble) (s : State) :
    (absorbNibble n s).A = (shuffleIfSaturated s).A + 1 := by
  rw [absorbNibble_eq, setA_A]

theorem absorbNibble_frame_of_shuffled (n : Nibble) (s : State) :
    KeepsRegisters [.A, .T1, .T2] (shuffleIfSaturated s) (absorbNibble n s) := by
  rw [absorbNibble_eq]
  exact ((swap_frame _ _ _).mono (by decide)).trans ((setA_frame _ _).mono (by decide))

/-- A nibble absorbed at a saturated counter leaves the counter at 1, so the next nibble finds it unsaturated
(R121). -/
theorem absorbNibble_A_of_saturated {n : Nibble} {s : State} (h : s.A = 128) : (absorbNibble n s).A = 1 := by
  rw [absorbNibble_A, shuffleIfSaturated_A, if_pos h]
  rfl

theorem absorbStop_keepsArray (s : State) : KeepsArray (shuffleIfSaturated s) (absorbStop s) := by
  rw [absorbStop_eq]
  exact fun _ => rfl

@[simp] theorem absorbStop_A (s : State) : (absorbStop s).A = (shuffleIfSaturated s).A + 1 := by
  rw [absorbStop_eq, setA_A]

theorem absorbStop_frame_of_shuffled (s : State) :
    KeepsRegisters [.A] (shuffleIfSaturated s) (absorbStop s) := by
  rw [absorbStop_eq]
  exact setA_frame _ _

theorem output_Z (s : State) :
    (output s).Z = s.S.read (s.S.read (s.S.read (s.Z + s.K) + s.I) + s.J) := rfl

theorem output_keepsArray (s : State) : KeepsArray s (output s) := fun _ => rfl

/-! ### One context, two ways to reach it -/

theorem KeepsRegisters.symm {l : List RegName} {s t : State} (h : KeepsRegisters l s t) :
    KeepsRegisters l t s := fun r hr => (h r hr).symm

theorem SameContext.respond {s t : State} (h : SameContext s t) (st : Status) (d : Byte) :
    SameContext (s.respond st d) (t.respond st d) :=
  ((respond_sameContext s st d).symm.trans h).trans (respond_sameContext t st d)

/-- A response between the two nibbles of a byte is nothing to the second (R121). -/
theorem absorbByte_sameContext_nibbles (b : Byte) (s : State) (st : Status) (d : Byte) :
    SameContext (absorbNibble (highNibble b) ((absorbNibble (lowNibble b) s).respond st d)) (absorbByte b s) := by
  rw [absorbByte_eq]
  exact absorbNibble_sameContext _ (respond_sameContext _ st d).symm

/-- Two states with the same context, both reached from one state by absorbing, agree in every register but the
scratch ones. -/
theorem SameContext.keepsRegisters_of_frames {s t u : State} (h : SameContext t u)
    (ht : KeepsRegisters [.I, .J, .K, .A, .W, .T1, .T2] s t)
    (hu : KeepsRegisters [.I, .J, .K, .A, .W, .T1, .T2] s u) : KeepsRegisters [.T1, .T2] t u :=
  h.2.inter (ht.symm.trans hu) (by decide)

/-! ### The statements -/

/-- Settles O26: the body is the conditional shuffle, an exchange and the count; the shuffle takes the counter
128 to 0, so what is counted up is at most 127. -/
theorem absorbNibbleSwapsAtTheCounter : Obligations.AbsorbNibbleSwapsAtTheCounter := by
  refine fun n s => ⟨encode_absn n, exec_of_dead rfl, fun hlive => ?_⟩
  have hA : ((absorbNibble n s).respond .ok 0x00).A = (shuffleIfSaturated s).A + 1 := absorbNibble_A n s
  refine ⟨shuffleIfSaturated s, _, shuffleIfSaturated_shuffledWhen s, absn_completes n hlive,
    (absorbNibble_exchanged n s).respond _ _, hA, (absorbNibble_frame_of_shuffled n s).respond _ _,
    fun hrange => ?_⟩
  have hle := shuffleIfSaturated_A_le hrange
  refine ⟨hle, ?_⟩
  rw [hA]
  bv_omega

/-- Settles O27: the response between the two nibbles is the one difference between `ABSB` and the two `ABSN`,
and it is no part of the context the second nibble reads. -/
theorem absorbByteIsTwoNibblesLowFirst : Obligations.AbsorbByteIsTwoNibblesLowFirst := by
  refine fun b s => ⟨encode_absb b, exec_of_dead rfl, fun hlive => ?_⟩
  rw [← lowNibble_eq, ← highNibble_eq]
  have hm := absn_completes (lowNibble b) hlive
  have hlive' : ((absorbNibble (lowNibble b) s).respond .ok 0x00).VALID = true :=
    (absorbNibble_interface (lowNibble b) s).VALID.trans hlive
  have hu := absn_completes (highNibble b) hlive'
  have ht : Completes (.absb b) s ((absorbByte b s).respond .ok 0x00) 0x0000 :=
    completes_of_live (exec_absb b s) (absorbByte_interface b s) hlive
  have hsame := (absorbByte_sameContext_nibbles b s .ok 0x00).respond .ok 0x00
  refine ⟨_, _, _, hm, hu, ht, hsame.1, ?_, fun ⟨hs, hsecond⟩ => ?_⟩
  · have hnibbles : KeepsRegisters (mayWrite .ABSN) s _ := .trans (exec_frame hm.1) (exec_frame hu.1)
    exact hsame.keepsRegisters_of_frames hnibbles (exec_frame ht.1)
  · rw [respond_A, absorbNibble_A_of_saturated hs] at hsecond
    exact absurd hsecond (by decide)

/-- Settles O28: the body is the conditional shuffle and the count. -/
theorem absorbStopOnlyCounts : Obligations.AbsorbStopOnlyCounts := by
  refine ⟨rfl, fun s => ⟨exec_of_dead rfl, fun hlive => ?_⟩⟩
  exact ⟨shuffleIfSaturated s, _, shuffleIfSaturated_shuffledWhen s,
    completes_of_live (exec_abss s) (absorbStop_interface s) hlive, (absorbStop_keepsArray s).respond _ _,
    absorbStop_A s, ((absorbStop_frame_of_shuffled s).respond _ _).mono (by decide)⟩

/-- Settles O29: the body writes `Z` alone, with the byte read through the array. -/
theorem outputReadsThroughTheArray : Obligations.OutputReadsThroughTheArray := by
  refine ⟨rfl, fun s => ⟨exec_of_dead rfl, fun hlive => ?_⟩⟩
  exact ⟨_, completes_with_Z_of_live (exec_output s) (output_interface s) hlive, output_Z s,
    (output_keepsArray s).respond _ _, ((output_frame s).respond _ _).mono (by decide)⟩

/-- Settles O30: the body is the conditional shuffle, an update and an output, and neither of the last two
writes the counter. -/
theorem dripShufflesUpdatesAndOutputs : Obligations.DripShufflesUpdatesAndOutputs := by
  refine ⟨rfl, fun s => ⟨exec_of_dead rfl, fun hlive => ?_⟩⟩
  have ht := completes_with_Z_of_live (exec_drip s) (drip_interface s) hlive
  have hA := drip_A s
  have hu := update_updated (shuffleIfPending s)
  rw [drip_eq] at ht hA
  generalize update (shuffleIfPending s) = u at ht hA hu
  exact ⟨shuffleIfPending s, u, _, shuffleIfPending_shuffledWhen_pos s, hu, ht, output_Z u,
    (output_keepsArray u).respond _ _, ((output_frame u).respond _ _).mono (by decide), hA⟩

end Sys2Proof.Machine

/-! SUPPORT. The protocol family (spec/42_protocol.md R140, R141): the conditional shuffle a second time, how
`CRYPT` ends on a live context, and what two answers to one body share; then the two statements. -/

namespace Sys2Proof

theorem encode_crypt (d : Byte) : encode (.crypt d) = (0x21000000 : Word32) ||| d.setWidth 32 :=
  (BitVec.setWidth_eq _).symm.trans (append_zeros 0x21 d)

end Sys2Proof

namespace Sys2Proof.Machine

/-! ### `SHUFP` (R140) -/

theorem shufp_completes {s : State} (hlive : s.VALID = true) :
    Completes .shufp s ((shuffleIfPending s).respond .ok 0x00) 0x0000 :=
  completes_of_live (exec_shufp s) (shuffleIfPending_interface s) hlive

/-- With no nibble pending, `SHUFP` on a live context only answers. -/
theorem shufp_completes_of_zero {s : State} (hlive : s.VALID = true) (hA : s.A = 0x00) :
    Completes .shufp s (s.respond .ok 0x00) 0x0000 := by
  have h := shufp_completes hlive
  rwa [shuffleIfPending_of_zero hA] at h

/-! ### `CRYPT` (R141) -/

/-- `CRYPT d` on a live context leaves what the drip leaves and answers the drip's byte combined with `d`. -/
theorem crypt_completes (d : Byte) {s : State} (hlive : s.VALID = true) :
    Completes (.crypt d) s ((drip s).respond .ok (d ^^^ (drip s).Z)) ((0x00 : Byte) ++ (d ^^^ (drip s).Z)) :=
  ⟨(exec_crypt d s).trans (whenLive_of_live hlive _), (drip_interface s).respond .ok _⟩

/-- Combining with one key byte twice gives the plain byte back: encryption and decryption are one command. -/
theorem xor_key_twice (d k : Byte) : (d ^^^ k) ^^^ k = d := by
  rw [BitVec.xor_assoc, BitVec.xor_self, BitVec.xor_zero]

/-- The data byte of the answer is no part of the state the answer leaves: two answers after one body leave
the same array. -/
theorem keepsArray_between_responses {s : State} {st st' : Status} {d d' : Byte} :
    KeepsArray (s.respond st d) (s.respond st' d') := fun _ => rfl

/-- Two answers after one body leave the same registers. -/
theorem keepsRegisters_between_responses {l : List RegName} {s : State} {st st' : Status} {d d' : Byte} :
    KeepsRegisters l (s.respond st d) (s.respond st' d') :=
  ((KeepsRegisters.refl l s).respond st d).symm.trans ((KeepsRegisters.refl l s).respond st' d')

/-! ### The statements -/

/-- Settles O31: the body is the conditional shuffle, after which the counter is 0, so that the second `SHUFP`
finds nothing pending and only answers. (The name `shuffleIfPending` is the body's.) -/
theorem shufpIsShuffleIfPending : Obligations.ShuffleIfPending := by
  refine ⟨rfl, fun s => ⟨exec_of_dead rfl, fun hlive => ?_⟩⟩
  have hA : ((shuffleIfPending s).respond .ok 0x00).A = 0 := shuffleIfPending_A s
  have hlive' : ((shuffleIfPending s).respond .ok 0x00).VALID = true :=
    (shuffleIfPending_interface s).VALID.trans hlive
  refine ⟨shuffleIfPending s, _, shuffleIfPending_shuffledWhen_pos s, shufp_completes hlive,
    (respond_sameContext _ _ _).1, (KeepsRegisters.refl _ _).respond _ _, hA, ?_⟩
  exact ⟨_, shufp_completes_of_zero hlive' hA, (respond_sameContext _ _ _).1,
    (KeepsRegisters.refl _ _).respond _ _⟩

/-- Settles O32: `DRIP`, `CRYPT d` and `CRYPT` of its answer from one state run the same body on it, so they
differ in their answers alone; the answers are the drip byte, combined with `d`, and `d` again. -/
theorem cryptIsDripXored : Obligations.CryptIsDripXored := by
  refine fun d s => ⟨encode_crypt d, exec_of_dead rfl, fun hlive => ?_⟩
  have hdrip := completes_with_Z_of_live (exec_drip s) (drip_interface s) hlive
  have hback := crypt_completes (d ^^^ (drip s).Z) hlive
  rw [xor_key_twice] at hback
  exact ⟨_, _, _, hdrip, crypt_completes d hlive, keepsArray_between_responses,
    keepsRegisters_between_responses, _, hback, keepsArray_between_responses, keepsRegisters_between_responses⟩

end Sys2Proof.Machine

/-! SUPPORT. The random generators (spec/43_random.md R171): a series of drips on a live context, the word packed
from four bytes, and one draw of `RANDOM32`; then the statement. -/

namespace Sys2Proof.Machine

/-! ### Drips in series -/

/-- A command that completes is issued with that response, if its word decodes back to it. -/
theorem issue_of_completes {i : Instr} {s t : State} {r : Word16} (hd : decode (encode i) = .command i)
    (h : Completes i s t r) : issue i s = some (t, r) := by
  obtain ⟨hexec, -, hresp⟩ := h
  exact issue_of_exec hd hexec hresp

/-- On a live context a drip is issued with status `OK` and leaves the context live. -/
theorem issue_drip_of_live {s : State} (hlive : s.VALID = true) :
    ∃ t b, issue .drip s = some (t, responseWord .ok b) ∧ t.VALID = true :=
  ⟨_, _, issue_of_completes rfl (completes_with_Z_of_live (exec_drip s) (drip_interface s) hlive),
    (drip_interface s).VALID.trans hlive⟩

/-- On a live context any number of drips runs through, with one byte each, and leaves the context live. -/
theorem drips_runThrough (n : Nat) {s : State} (hlive : s.VALID = true) :
    ∃ (t : State) (bs : List Byte), RunsThrough (List.replicate n .drip) s t (bs.map (responseWord .ok)) ∧
      bs.length = n ∧ t.VALID = true := by
  induction n generalizing s with
  | zero => exact ⟨s, [], runsThrough_nil s, rfl, hlive⟩
  | succ n ih =>
    obtain ⟨m, b, hdrip, hm⟩ := issue_drip_of_live hlive
    obtain ⟨t, bs, hrest, hlen, ht⟩ := ih hm
    exact ⟨t, b :: bs, runsThrough_cons hdrip (statusField_responseWord .ok b) hrest, by rw [List.length_cons, hlen], ht⟩

/-! ### One draw -/

/-- The data bytes of responses made from a list of bytes are that list. -/
theorem map_dataField_responseWord (st : Status) (bs : List Byte) :
    (bs.map (responseWord st)).map dataField = bs :=
  List.map_map.trans (List.map_id'' (dataField_responseWord st) bs)

/-- A byte put below a word adds to the word's value times 256. -/
theorem toNat_append_byte {n : Nat} (x : BitVec n) (b : Byte) : (x ++ b).toNat = x.toNat * 256 + b.toNat := by
  rw [BitVec.toNat_append, ← Nat.shiftLeft_add_eq_or_of_lt b.isLt, Nat.shiftLeft_eq]

/-- The value of four bytes put together, the last the least significant. -/
theorem toNat_append_four (b0 b1 b2 b3 : Byte) : (b3 ++ b2 ++ b1 ++ b0 : Word32).toNat =
    b0.toNat + 256 * b1.toNat + 65536 * b2.toNat + 16777216 * b3.toNat := by
  rw [toNat_append_byte, toNat_append_byte, toNat_append_byte]
  omega

/-- When the four drips of a draw run through, the draw is the word packed from their bytes. -/
theorem drawRandom32_of_runsThrough {s t : State} {bs : List Byte} {v : Word32}
    (h : RunsThrough random32 s t (bs.map (responseWord .ok))) (hpack : packLittleEndian bs = some v) :
    drawRandom32 s = some (t, .word v) := by
  have hrefusal := refusalIn_of_runsThrough h
  obtain ⟨hissued, -⟩ := h
  simp only [drawRandom32, hissued, hrefusal, map_dataField_responseWord, hpack, Option.map_some]

/-! ### The statement -/

/-- Settles O51: four drips on a live context run through, and a draw packs their four bytes. -/
theorem randomWordIsFourDripsLittleEndian : Obligations.RandomWordIsFourDripsLittleEndian := by
  intro s hlive
  obtain ⟨t, bs, hrun, hlen, -⟩ := drips_runThrough 4 hlive
  obtain ⟨b0, b1, b2, b3, rfl⟩ := List.length_eq_four.1 hlen
  exact ⟨t, b0, b1, b2, b3, b3 ++ b2 ++ b1 ++ b0, hrun.1, drawRandom32_of_runsThrough hrun rfl,
    toNat_append_four b0 b1 b2 b3⟩

end Sys2Proof.Machine

/-! SUPPORT. The utility family (spec/44_utility.md R180 to R186): the words of format L, how each command ends,
which it does in every state, and `LCHK` a second time; then the five statements. -/

namespace Sys2Proof

/-- A word of format L, whose operand is the whole of `arg`, assembled by a shift and an OR
(spec/30_encoding.md R74, R78). -/
theorem append_L (op : Byte) (len : Word24) :
    (op ++ len : Word32) = op.setWidth 32 <<< 24 ||| len.setWidth 32 :=
  (BitVec.setWidth_eq _).symm.trans BitVec.setWidth_append_eq_shiftLeft_setWidth_or

theorem encode_setla (len : Word24) : encode (.setla len) = (0x31000000 : Word32) ||| len.setWidth 32 :=
  append_L 0x31 len

theorem encode_setlb (len : Word24) : encode (.setlb len) = (0x32000000 : Word32) ||| len.setWidth 32 :=
  append_L 0x32 len

theorem encode_cmpa (x y : Byte) :
    encode (.cmpa x y) = (0x35000000 : Word32) ||| x.setWidth 32 <<< 8 ||| y.setWidth 32 :=
  append_P 0x35 x y

end Sys2Proof

namespace Sys2Proof.Machine

/-! ### How each command ends, whether or not there is a context -/

theorem zeroize_completes (s : State) : Completes .zeroize s ((resetMove s).respond .ok 0x00) 0x0000 :=
  ⟨exec_zeroize s, rfl, rfl⟩

theorem setla_completes (len : Word24) (s : State) :
    Completes (.setla len) s ((s.setLA len).respond .ok 0x00) 0x0000 := ⟨rfl, rfl, rfl⟩

theorem setlb_completes (len : Word24) (s : State) :
    Completes (.setlb len) s ((s.setLB len).respond .ok 0x00) 0x0000 := ⟨rfl, rfl, rfl⟩

theorem cmpz_completes (s : State) : Completes .cmpz s ((s.setCACC 0x00).respond .ok 0x00) 0x0000 :=
  ⟨rfl, rfl, rfl⟩

theorem cmpa_completes (x y : Byte) (s : State) :
    Completes (.cmpa x y) s ((s.setCACC (s.CACC ||| (x ^^^ y))).respond .ok 0x00) 0x0000 :=
  ⟨rfl, rfl, rfl⟩

theorem cmpr_completes (s : State) : Completes .cmpr s (s.respond .ok (foldAccumulator s.CACC))
    ((0x00 : Byte) ++ foldAccumulator s.CACC) := ⟨rfl, rfl, rfl⟩

/-! ### `LCHK` (R183) -/

/-- The answer of a length check is no part of the lengths, so the check made again answers the same. -/
theorem lchk_repeats (s : State) : ∃ r, exec .lchk s = .next (s.receive r) ∧
    exec .lchk (s.receive r) = .next ((s.receive r).receive r) := by
  by_cases h : s.LA = s.LB
  · exact ⟨0x0000, exec_lchk_of_eq h, exec_lchk_of_eq h⟩
  · exact ⟨0x0100, exec_lchk_of_ne h, exec_lchk_of_ne h⟩

/-! ### The statements -/

/-- Settles O33: `ZEROIZE` is the reset, answered, and a reset leaves every entry and every register 0. -/
theorem zeroizeLeavesTheResetState : Obligations.ZeroizeLeavesTheResetState := by
  refine ⟨rfl, fun s => ⟨_, zeroize_completes s, fun v => ?_, ?_, fun r => ?_⟩⟩
  · rw [respond_S, resetMove_read]
  · rw [respond_VALID, resetMove_VALID]
  · rw [respond_value, resetMove_value, State.reset_value]
    exact ⟨rfl, rfl⟩

/-- Settles O34: each command writes its length register; the rest is the frame of its row. -/
theorem setLengthsLoadTheirRegisters : Obligations.SetLengthsLoadTheirRegisters := by
  intro len s
  have hA := setla_completes len s
  have hB := setlb_completes len s
  exact ⟨encode_setla len, encode_setlb len,
    ⟨_, hA, by rw [respond_LA, setLA_LA], exec_keepsArray rfl hA.1, exec_frame hA.1⟩,
    ⟨_, hB, by rw [respond_LB, setLB_LB], exec_keepsArray rfl hB.1, exec_frame hB.1⟩⟩

/-- Settles O35: the two outcomes, each the state before with one response received, and the check again. -/
theorem lengthCheckComparesAndChangesNothing : Obligations.LengthCheckComparesAndChangesNothing := by
  refine ⟨rfl, fun s => ⟨exec_lchk_of_eq, exec_lchk_of_ne, ?_⟩⟩
  obtain ⟨r, hfirst, hagain⟩ := lchk_repeats s
  exact ⟨_, _, r, hfirst, receive_responses s r, hagain, by simp⟩

/-- Settles O36: each command writes the accumulator; the rest is the frame of its row. -/
theorem compareUnitAccumulates : Obligations.CompareUnitAccumulates := by
  refine ⟨rfl, fun x y s => ?_⟩
  have hz := cmpz_completes s
  have ha := cmpa_completes x y s
  exact ⟨encode_cmpa x y,
    ⟨_, hz, by rw [respond_CACC, setCACC_CACC], exec_keepsArray rfl hz.1, exec_frame hz.1⟩,
    ⟨_, ha, by rw [respond_CACC, setCACC_CACC], exec_keepsArray rfl ha.1, exec_frame ha.1⟩⟩

/-- Settles O37: the answer is the fold of the accumulator, which tells 0 from every other byte. -/
theorem compareResultIsTheFoldedBit : Obligations.CompareResultIsTheFoldedBit := by
  refine ⟨rfl, fun s => ?_⟩
  have h := cmpr_completes s
  exact ⟨_, _, _, _, rfl, rfl, rfl, h, foldAccumulator_eq s.CACC, exec_keepsArray rfl h.1, exec_frame h.1⟩

end Sys2Proof.Machine

/-! SUPPORT. The exceptions family (spec/60_exceptions.md R200, R203, R204): the commands that need a context, the
cause of each status, and the status byte of a response; then the three statements. -/

namespace Sys2Proof

/-- The column "needs VALID" of R75 is the twelve commands that operate on a context (R204). -/
theorem needsValid_iff_mem (m : Mnemonic) : m.needsValid = true ↔ m ∈
    [.SWAP, .UPDATE, .WHIP, .CRUSH, .SHUFFLE, .ABSN, .ABSB, .ABSS, .OUTPUT, .DRIP, .SHUFP, .CRYPT] := by
  cases m <;> decide

end Sys2Proof

namespace Sys2Proof.Machine

/-! ### The cause of each status (R200) -/

/-- What gives the word `w` on `s` the status: the only cause of each status that is not `OK`. -/
def StatusCause (w : Word32) (s : State) : Status → Prop
  | .ok => True
  | .lengthMismatch => decode w = .command .lchk ∧ s.LA ≠ s.LB
  | .illegalCommand => ∃ why, decode w = .illegal why
  | .notInitialised => s.VALID = false ∧ ∃ i, decode w = .command i ∧ i.mnemonic.needsValid = true

theorem statusOf_cause (w : Word32) (s : State) : StatusCause w s (statusOf w s) := by
  cases hd : decode w with
  | illegal why =>
    rw [statusOf_of_illegal hd]
    exact ⟨why, hd⟩
  | command i =>
    rw [statusOf_of_command hd]
    split
    next hdead =>
      rw [Bool.and_eq_true, Bool.not_eq_true'] at hdead
      exact ⟨hdead.2, i, hd, hdead.1⟩
    next =>
      split
      next hne => exact ⟨hne.1 ▸ hd, hne.2⟩
      next => trivial

/-! ### The status byte of a response (R73) -/

theorem code_toNat_le (st : Status) : st.code.toNat ≤ 3 := by cases st <;> decide

theorem code_injective : Function.Injective Status.code := by
  intro st st'
  cases st <;> cases st' <;> decide

theorem statusField_of_response {w : Word32} {s t : State} {r : Word16} (ht : acceptCommand w s = .next t)
    (hr : t.responses = s.responses ++ [r]) : statusField r = (statusOf w s).code := by
  rcases response_by_status ht hr with ⟨-, rfl, -⟩ | ⟨i, hok, -, rfl⟩
  · exact statusField_responseWord _ _
  · rw [statusField_responseWord, hok]

/-! ### The statements -/

/-- Settles O15: a word with another status than `OK` is a refused one, whose response is all that changes. -/
theorem raisingChangesNothing : Obligations.RaisingChangesNothing := by
  intro w s t r ht hr hst
  rcases response_by_status ht hr with ⟨-, hword, hstate⟩ | ⟨i, -, -, rfl⟩
  · exact ⟨by rw [hword, dataField_responseWord], hstate⟩
  · exact absurd (statusField_responseWord _ _) hst

/-- Settles O14: the status byte is the code of `statusOf`, no two statuses share a code, and each has its cause. -/
theorem onlyFourStatuses : Obligations.OnlyFourStatuses := by
  intro w s t r ht hr
  have hfield : statusField r = (statusOf w s).code := statusField_of_response ht hr
  have hcause : ∀ st : Status, statusField r = st.code → StatusCause w s st := fun st h =>
    code_injective (hfield.symm.trans h) ▸ statusOf_cause w s
  refine ⟨hfield ▸ code_toNat_le _, hcause .lengthMismatch, hcause .illegalCommand, fun h => ?_,
    raisingChangesNothing w s t r ht hr⟩
  obtain ⟨hdead, i, hd, hneeds⟩ := hcause .notInitialised h
  exact ⟨hdead, i, hd, (needsValid_iff_mem i.mnemonic).1 hneeds⟩

/-- Settles O16: the twelve commands are those that need a context, and each is refused while there is none. -/
theorem engineCommandsNeedAContext : Obligations.EngineCommandsNeedAContext :=
  fun i _ hdead hmem => exec_of_dead ((needsValid_iff_mem i.mnemonic).2 hmem) hdead

end Sys2Proof.Machine

/-! SUPPORT. The encoding family, second part (spec/30_encoding.md R72 to R78): the word of a command read back, a
word told by mask and match, and the assembler beside the encoder; then the six statements. -/

namespace Sys2Proof

/-! ### The word of a command read back (R72, R74) -/

/-- Every command's word has the command's opcode and no reserved bit set. -/
theorem encodedFields (i : Instr) : Laws.EncodedFields.Statement i := by
  cases i with
  | init => exact Laws.EncodedFields.init
  | swap x y => exact Laws.EncodedFields.swap x y
  | update => exact Laws.EncodedFields.update
  | whip => exact Laws.EncodedFields.whip
  | crush => exact Laws.EncodedFields.crush
  | shuffle => exact Laws.EncodedFields.shuffle
  | absn n => exact Laws.EncodedFields.absn n
  | absb b => exact Laws.EncodedFields.absb b
  | abss => exact Laws.EncodedFields.abss
  | output => exact Laws.EncodedFields.output
  | drip => exact Laws.EncodedFields.drip
  | shufp => exact Laws.EncodedFields.shufp
  | crypt d => exact Laws.EncodedFields.crypt d
  | zeroize => exact Laws.EncodedFields.zeroize
  | setla len => exact Laws.EncodedFields.setla len
  | setlb len => exact Laws.EncodedFields.setlb len
  | lchk => exact Laws.EncodedFields.lchk
  | cmpz => exact Laws.EncodedFields.cmpz
  | cmpa x y => exact Laws.EncodedFields.cmpa x y
  | cmpr => exact Laws.EncodedFields.cmpr

/-- The operands read from a command's `arg` field are the command's operands. -/
theorem ofFields_arg (i : Instr) : Instr.ofFields i.mnemonic i.arg = i := by
  cases i with
  | swap x y => exact congrArg₂ Instr.swap (argX_P 0 x y) (argY_P 0 x y)
  | cmpa x y => exact congrArg₂ Instr.cmpa (argX_P 0 x y) (argY_P 0 x y)
  | absn n => exact congrArg Instr.absn (argN_Q 0 n)
  | absb b => exact congrArg Instr.absb (argY_B 0 b)
  | crypt d => exact congrArg Instr.crypt (argY_B 0 d)
  | _ => rfl

theorem decode_encode (i : Instr) : decode (encode i) = .command i := by
  obtain ⟨hop, hreserved⟩ := encodedFields i
  refine decode_eq_command.2 ⟨i.mnemonic, hop, hreserved, ?_⟩
  rw [encode, argField_append, ofFields_arg]

theorem encode_of_decode {w : Word32} {i : Instr} (h : decode w = .command i) : encode i = w := by
  obtain ⟨m, hop, hreserved, rfl⟩ := decode_eq_command.1 h
  rw [encode, mnemonic_ofFields, arg_ofFields hreserved, ← hop, word_split]

/-! ### Mask and match (R75) -/

theorem opArg_inj {op op' : Byte} {arg arg' : Word24} :
    (op ++ arg : Word32) = op' ++ arg' ↔ op = op' ∧ arg = arg' := by
  constructor
  · intro h
    have hop := congrArg opField h
    have harg := congrArg argField h
    rw [opField_append, opField_append] at hop
    rw [argField_append, argField_append] at harg
    exact ⟨hop, harg⟩
  · rintro ⟨rfl, rfl⟩
    rfl

/-- The mask keeps the opcode and the reserved bits, and the match value has the opcode and no reserved bit. -/
theorem masked_eq_match_iff (w : Word32) (m : Mnemonic) : w &&& m.mask = m.matchWord ↔
    opField w = m.op ∧ argField w &&& m.format.reserved = 0 := by
  have hmasked : w &&& m.mask = opField w ++ (argField w &&& m.format.reserved) := by
    conv_lhs => rw [← word_split w]
    rw [Mnemonic.mask, BitVec.and_append, show (0xFF : Byte) = BitVec.allOnes 8 from rfl, BitVec.and_allOnes]
  rw [hmasked, Mnemonic.matchWord, opArg_inj]

theorem decode_mnemonic_iff (w : Word32) (m : Mnemonic) : (∃ i, decode w = .command i ∧ i.mnemonic = m) ↔
    opField w = m.op ∧ argField w &&& m.format.reserved = 0 := by
  constructor
  · rintro ⟨i, hd, rfl⟩
    obtain ⟨m, hop, hreserved, rfl⟩ := decode_eq_command.1 hd
    rw [mnemonic_ofFields]
    exact ⟨hop, hreserved⟩
  · rintro ⟨hop, hreserved⟩
    exact ⟨_, decode_eq_command.2 ⟨m, hop, hreserved, rfl⟩, mnemonic_ofFields m _⟩

/-! ### The statements -/

/-- Settles O1: the fields of a command's word give the command back. -/
theorem decodeOfEncode : Obligations.DecodeOfEncode := decode_encode

/-- Settles O2: a word is its two fields, and with no reserved bit set its `arg` field is its operands. -/
theorem encodeOfDecode : Obligations.EncodeOfDecode := fun _ _ => encode_of_decode

/-- Settles O3: mask and match test what the decoder tests, and no two commands share an opcode. -/
theorem decodeFollowsMatchAndMask : Obligations.DecodeFollowsMatchAndMask := by
  refine fun w m => ⟨(decode_mnemonic_iff w m).trans (masked_eq_match_iff w m).symm, fun m' h h' => ?_⟩
  exact op_injective (((masked_eq_match_iff w m).1 h).1.symm.trans ((masked_eq_match_iff w m').1 h').1)

/-- Settles O5: six words, decoded. -/
theorem specWordsDecode : Obligations.SpecWordsDecode := by
  unfold Obligations.SpecWordsDecode
  decide

end Sys2Proof

namespace Sys2Proof.Machine

/-! ### The assembler (R78) -/

theorem assemble_isSome_iff (l : AsmLine) : (assemble l).isSome ↔ l.wellFormed = true := by
  unfold assemble
  split
  next h => simp [h]
  next h => simp [h]

/-- The word of an accepted line is its opcode followed by its `arg` field. -/
theorem assemble_of_wellFormed {l : AsmLine} (h : l.wellFormed = true) :
    assemble l = some (l.mnemonic.op ++ argOfOperands l.mnemonic.format l.operands) := by
  rw [assemble, if_pos h, append_L]

/-- A number of fewer bits than `arg`, with zeros above it. -/
theorem ofNat_toNat_low {k n : Nat} (v : BitVec n) :
    BitVec.ofNat (k + n) v.toNat = (0 : BitVec k) ++ v := by
  refine BitVec.eq_of_toNat_eq ?_
  have hlt : v.toNat < 2 ^ (k + n) :=
    v.isLt.trans_le (Nat.pow_le_pow_right (by decide) (Nat.le_add_left n k))
  rw [BitVec.toNat_ofNat, Nat.mod_eq_of_lt hlt, BitVec.toNat_append]
  simp

/-- Two byte numbers, laid out as format P lays them out (R74). -/
theorem ofNat_pair (x y : Byte) :
    BitVec.ofNat 24 (x.toNat * 2 ^ 8 + y.toNat) = (0 : Byte) ++ x ++ y := by
  refine BitVec.eq_of_toNat_eq ?_
  rw [toNat_append_byte, toNat_append_byte, BitVec.toNat_ofNat]
  simp
  omega

theorem lineOfInstr_wellFormed (i : Instr) : (lineOfInstr i).wellFormed = true := by
  cases i with
  | swap x y | cmpa x y => exact Bool.and_eq_true_iff.2 ⟨decide_eq_true x.isLt, decide_eq_true y.isLt⟩
  | absn v | absb v | crypt v | setla v | setlb v => exact decide_eq_true v.isLt
  | _ => rfl

theorem argOfOperands_lineOfInstr (i : Instr) :
    argOfOperands i.mnemonic.format (lineOfInstr i).operands = i.arg := by
  cases i with
  | swap x y | cmpa x y => exact ofNat_pair x y
  | absn v | absb v | crypt v => exact ofNat_toNat_low v
  | setla v | setlb v => exact BitVec.eq_of_toNat_eq (Nat.mod_eq_of_lt v.isLt)
  | _ => rfl

/-! ### The statements about the assembler -/

/-- Settles O6: a command's line is accepted, and its operands are laid out as the encoder lays them out. -/
theorem assemblerAgreesWithEncoder : Obligations.AssemblerAgreesWithEncoder := by
  intro i
  rw [assemble_of_wellFormed (lineOfInstr_wellFormed i)]
  exact congrArg (fun arg => some (i.mnemonic.op ++ arg)) (argOfOperands_lineOfInstr i)

/-- Settles O7: a line is accepted exactly when its operands fit their fields. -/
theorem assemblerRefusesWhatDoesNotFit : Obligations.AssemblerRefusesWhatDoesNotFit := by
  intro n
  simp only [assemble_isSome_iff, AsmLine.wellFormed, Mnemonic.format, Format.accepts, Operand.fitsNumber,
    Operand.fitsByte, Bool.and_eq_true, decide_eq_true_eq]
  refine ⟨?_, ?_, ?_, fun k => ?_, fun k => ?_, ?_, ?_⟩ <;> omega

end Sys2Proof.Machine

/-! SUPPORT. The step (spec/30_encoding.md R71, spec/70_reset_and_hazards.md R233), the flag `VALID`
(spec/10_state.md R27) and the invariant (R32): what one step is for each move of the host, and a live context
carried through the bodies; then the eight statements. -/

namespace Sys2Proof.Machine

/-! ### A step, by the host's next move -/

theorem step_of_idle {s : State} (h : s.host = []) : step s = .next s := by
  rw [step, h]

theorem step_of_reset {s : State} {rest : List HostMove} (h : s.host = .reset :: rest) :
    step s = .next (resetMove (s.setHost rest)) := by
  rw [step, h]

theorem step_of_command {s : State} {w : Word32} {rest : List HostMove} (h : s.host = .command w :: rest) :
    step s = acceptCommand w (s.setHost rest) := by
  rw [step, h]

/-! ### `VALID` -/

theorem KeepsRegisters.VALID {l : List RegName} {s t : State} (h : KeepsRegisters l s t) (hl : .VALID ∉ l) :
    t.VALID = s.VALID := by
  have hv : t.VALID.toNat = s.VALID.toNat := h .VALID hl
  revert hv
  cases t.VALID <;> cases s.VALID <;> decide

theorem VALID_notMem_mayWrite {m : Mnemonic} (hinit : m ≠ .INIT) (hzero : m ≠ .ZEROIZE) :
    .VALID ∉ mayWrite m := by
  cases m with
  | INIT => exact absurd rfl hinit
  | ZEROIZE => exact absurd rfl hzero
  | _ => decide

/-- Only `INIT` and `ZEROIZE` have `VALID` in their row (R27). -/
theorem exec_VALID {i : Instr} {s t : State} (hinit : i ≠ .init) (hzero : i ≠ .zeroize)
    (h : exec i s = .next t) : t.VALID = s.VALID := by
  refine (exec_frame h).VALID (VALID_notMem_mayWrite ?_ ?_)
  · cases i with
    | init => exact absurd rfl hinit
    | _ => exact nofun
  · cases i with
    | zeroize => exact absurd rfl hzero
    | _ => exact nofun

/-! ### A live context through the bodies (R32) -/

/-- What the invariant asks of a state with a context. -/
structure LiveInv (s : State) : Prop where
  canonical : s.S.wf = true
  context : LiveContext s

theorem LiveContext.of_sameContext {s t : State} (h : LiveContext s) (hc : SameContext s t) :
    LiveContext t := by
  obtain ⟨-, -, -, -, -, hA, hW, -⟩ := (sameContext_iff s t).1 hc
  exact ⟨permuted_of_reads hc.1 h.permutation, hW ▸ h.oddStep, hA ▸ h.counter⟩

theorem InitialContext.liveContext {t : State} (h : InitialContext t) : LiveContext t where
  permutation := by
    have hid : t.S.read = id := funext h.array
    rw [State.permuted, hid]
    exact Function.bijective_id
  oddStep := by rw [h.W]; decide
  counter := by rw [h.A]; decide

theorem LiveInv.setA {s : State} (h : LiveInv s) {v : Byte} (hv : v.toNat ≤ 128) : LiveInv (s.setA v) :=
  ⟨h.canonical, h.context.permutation, h.context.oddStep, hv⟩

theorem LiveInv.setZ {s : State} (h : LiveInv s) (v : Byte) : LiveInv (s.setZ v) :=
  ⟨h.canonical, h.context.permutation, h.context.oddStep, h.context.counter⟩

theorem LiveInv.setW_add_two {s : State} (h : LiveInv s) : LiveInv (s.setW (s.W + 2)) :=
  ⟨h.canonical, h.context.permutation, add_two_odd h.context.oddStep, h.context.counter⟩

theorem LiveInv.swap {s : State} (h : LiveInv s) (x y : Byte) : LiveInv (swap x y s) :=
  ⟨swap_wf x y h.canonical, swap_permuted x y h.context.permutation, h.context.oddStep, h.context.counter⟩

theorem LiveInv.update {s : State} (h : LiveInv s) : LiveInv (update s) :=
  ⟨update_wf h.canonical, update_permuted h.context.permutation, h.context.oddStep, h.context.counter⟩

theorem LiveInv.compareExchange {s : State} (h : LiveInv s) (v : Byte) : LiveInv (compareExchange v s) := by
  unfold Machine.compareExchange
  split
  · exact h.swap _ _
  · exact ⟨h.canonical, h.context.permutation, h.context.oddStep, h.context.counter⟩

theorem LiveInv.whip {s : State} (h : LiveInv s) : LiveInv (whip s) :=
  whip_preserves (P := LiveInv) (fun _ hs => hs.update) (fun _ hs => hs.setW_add_two) h

theorem LiveInv.crush {s : State} (h : LiveInv s) : LiveInv (crush s) :=
  crush_preserves (P := LiveInv) (fun v _ hs => hs.compareExchange v) h

theorem LiveInv.shuffle {s : State} (h : LiveInv s) : LiveInv (shuffle s) :=
  shuffle_preserves (P := LiveInv) (fun _ hs => hs.update) (fun _ hs => hs.setW_add_two)
    (fun v _ hs => hs.compareExchange v) (fun _ hs => hs.setA (Nat.zero_le 128)) h

theorem LiveInv.shuffleIfPending {s : State} (h : LiveInv s) : LiveInv (shuffleIfPending s) := by
  unfold Machine.shuffleIfPending
  split
  · exact h.shuffle
  · exact h

theorem LiveInv.shuffleIfSaturated {s : State} (h : LiveInv s) : LiveInv (shuffleIfSaturated s) := by
  unfold Machine.shuffleIfSaturated
  split
  · exact h.shuffle
  · exact h

/-- After its conditional shuffle an absorption can count up without leaving the counter's range. -/
theorem LiveInv.counter_after_saturated {s : State} (h : LiveInv s) :
    ((Machine.shuffleIfSaturated s).A + 1).toNat ≤ 128 := by
  have hle := shuffleIfSaturated_A_le h.context.counter
  bv_omega

theorem LiveInv.absorbNibble {s : State} (h : LiveInv s) (n : Nibble) : LiveInv (absorbNibble n s) := by
  rw [absorbNibble_eq]
  exact (h.shuffleIfSaturated.swap _ _).setA h.counter_after_saturated

theorem LiveInv.absorbByte {s : State} (h : LiveInv s) (b : Byte) : LiveInv (absorbByte b s) := by
  rw [absorbByte_eq]
  exact (h.absorbNibble _).absorbNibble _

theorem LiveInv.absorbStop {s : State} (h : LiveInv s) : LiveInv (absorbStop s) := by
  rw [absorbStop_eq]
  exact h.shuffleIfSaturated.setA h.counter_after_saturated

theorem LiveInv.drip {s : State} (h : LiveInv s) : LiveInv (drip s) := by
  rw [drip_eq]
  exact h.shuffleIfPending.update.setZ _

/-! ### The invariant through a step -/

theorem Inv.of_sameContext {s t : State} (h : Inv s) (hc : SameContext s t) (hS : t.S = s.S) : Inv t := by
  have hV : t.VALID = s.VALID := hc.VALID
  refine ⟨hS ▸ h.canonical, fun hlive => (h.live (hV ▸ hlive)).of_sameContext hc, fun hdead => ?_⟩
  obtain ⟨hmemory, ⟨hi, hj, hk⟩, hz, ha, hw⟩ := h.dead (hV ▸ hdead)
  obtain ⟨-, hI, hJ, hK, hZ, hA, hW, -⟩ := (sameContext_iff s t).1 hc
  exact ⟨hS.trans hmemory, ⟨hI.trans hi, hJ.trans hj, hK.trans hk⟩, hZ.trans hz, hA.trans ha, hW.trans hw⟩

theorem LiveInv.inv {s : State} (h : LiveInv s) (hV : s.VALID = true) : Inv s :=
  ⟨h.canonical, fun _ => h.context, fun hdead => Bool.noConfusion (hV.symm.trans hdead)⟩

theorem Inv.liveInv {s : State} (h : Inv s) (hV : s.VALID = true) : LiveInv s := ⟨h.canonical, h.live hV⟩

theorem Inv.respond {s : State} (h : Inv s) (st : Status) (d : Byte) : Inv (s.respond st d) :=
  h.of_sameContext (respond_sameContext s st d) rfl

theorem resetMove_inv (s : State) : Inv (resetMove s) :=
  ⟨rfl, fun hlive => Bool.noConfusion hlive, fun _ => ⟨rfl, ⟨rfl, rfl, rfl⟩, rfl, rfl, rfl⟩⟩

theorem init_inv {s t : State} (h : exec .init s = .next t) : Inv t := by
  have hc := init_initialContext h
  obtain ⟨u, hu, -, hS, -⟩ := exec_init s
  obtain rfl : u = t := Host.Outcome.next.inj (hu.symm.trans h)
  exact LiveInv.inv ⟨hS ▸ wf_fill _, hc.liveContext⟩ hc.VALID

/-- A gated command keeps the invariant when its body keeps a live context: without one it only answers. -/
theorem gated_inv {i : Instr} {s t : State} {body : State → State} {data : State → Byte}
    (hexec : exec i s = whenLive s fun s => (body s).respond .ok (data s)) (hkeeps : KeepsInterface s (body s))
    (hbody : LiveInv s → LiveInv (body s)) (hs : Inv s) (h : exec i s = .next t) : Inv t := by
  rw [hexec] at h
  cases hv : s.VALID with
  | true =>
    rw [whenLive_of_live hv] at h
    obtain rfl := Host.Outcome.next.inj h
    exact ((hbody (hs.liveInv hv)).inv (hkeeps.VALID.trans hv)).respond _ _
  | false =>
    rw [whenLive_of_dead hv] at h
    obtain rfl := Host.Outcome.next.inj h
    exact hs.respond _ _

theorem exec_inv {i : Instr} {s t : State} (hs : Inv s) (h : exec i s = .next t) : Inv t := by
  cases i with
  | init => exact init_inv h
  | swap x y => exact gated_inv (exec_swap x y s) (swap_interface x y s) (·.swap x y) hs h
  | update => exact gated_inv (exec_update s) (update_interface s) (·.update) hs h
  | whip => exact gated_inv (exec_whip s) (whip_interface s) (·.whip) hs h
  | crush => exact gated_inv (exec_crush s) (crush_interface s) (·.crush) hs h
  | shuffle => exact gated_inv (exec_shuffle s) (shuffle_interface s) (·.shuffle) hs h
  | absn n => exact gated_inv (exec_absn n s) (absorbNibble_interface n s) (·.absorbNibble n) hs h
  | absb b => exact gated_inv (exec_absb b s) (absorbByte_interface b s) (·.absorbByte b) hs h
  | abss => exact gated_inv (exec_abss s) (absorbStop_interface s) (·.absorbStop) hs h
  | output => exact gated_inv (exec_output s) (output_interface s) (·.setZ _) hs h
  | drip => exact gated_inv (exec_drip s) (drip_interface s) (·.drip) hs h
  | shufp => exact gated_inv (exec_shufp s) (shuffleIfPending_interface s) (·.shuffleIfPending) hs h
  | crypt d => exact gated_inv (exec_crypt d s) (drip_interface s) (·.drip) hs h
  | zeroize => cases (exec_zeroize s).symm.trans h; exact (resetMove_inv s).respond _ _
  | setla len => cases h; exact (hs.of_sameContext (setLA_sameContext s len) rfl).respond _ _
  | setlb len => cases h; exact (hs.of_sameContext (setLB_sameContext s len) rfl).respond _ _
  | lchk =>
    obtain ⟨st, rfl⟩ := lchk_only_responds h
    exact hs.respond _ _
  | cmpz => cases h; exact (hs.of_sameContext (setCACC_sameContext s 0x00) rfl).respond _ _
  | cmpa x y => cases h; exact (hs.of_sameContext (setCACC_sameContext s (s.CACC ||| (x ^^^ y))) rfl).respond _ _
  | cmpr => cases h; exact hs.respond _ _

theorem acceptCommand_inv {w : Word32} {s t : State} (hs : Inv s) (h : acceptCommand w s = .next t) :
    Inv t := by
  cases hd : decode w with
  | command i => exact exec_inv hs ((acceptCommand_of_command hd s).symm.trans h)
  | illegal why =>
    cases (acceptCommand_of_illegal hd s).symm.trans h
    exact hs.respond _ _

theorem setHost_sameContext (s : State) (ms : List HostMove) : SameContext s (s.setHost ms) :=
  (sameContext_iff _ _).2 ⟨fun _ => rfl, rfl, rfl, rfl, rfl, rfl, rfl, rfl⟩

theorem step_inv {s t : State} (hs : Inv s) (h : step s = .next t) : Inv t := by
  rcases step_cases h with ⟨-, rfl⟩ | ⟨rest, -, rfl⟩ | ⟨w, rest, -, hw⟩
  · exact hs
  · exact resetMove_inv _
  · exact acceptCommand_inv (hs.of_sameContext (setHost_sameContext s rest) rfl) hw

/-! ### The statements -/

/-- Settles O39: a live context is carried through every body, and every other command or move leaves the context,
creates it or clears it. -/
theorem stepKeepsTheInvariant : Obligations.StepKeepsTheInvariant := fun _ _ => step_inv

/-- Settles O38: the reset state is what a reset leaves of it. -/
theorem resetMeetsTheInvariant : Obligations.ResetMeetsTheInvariant := resetMove_inv State.reset

/-- Settles O8: a step with a command word next accepts that word. -/
theorem stepRunsTheDecodedCommand : Obligations.StepRunsTheDecodedCommand := fun _ _ _ _ hhost hd =>
  (step_of_command hhost).trans (acceptCommand_of_command hd _)

/-- Settles O9: a step without a next move waits. -/
theorem stepWaitsForTheHost : Obligations.StepWaitsForTheHost := fun _ => step_of_idle

/-- Settles O10: a step with a reset next is the reset, which leaves every entry and every register 0. -/
theorem stepResetsTheEngine : Obligations.StepResetsTheEngine := fun _ _ hhost =>
  ⟨_, step_of_reset hhost, resetMove_read _, resetMove_value _, resetMove_host _, resetMove_responses _⟩

/-- Settles O11: a step with a command word next accepts it, and every word is answered. -/
theorem everyWordGetsOneResponse : Obligations.EveryWordGetsOneResponse := by
  intro s w rest hhost
  obtain ⟨t, r, ht, hresp⟩ := acceptCommand_answers w (s.setHost rest)
  exact ⟨t, r, (step_of_command hhost).trans ht, hresp⟩

/-- Settles O13: the response of a refused word and of a completed command, each with the status of `statusOf`. -/
theorem statusByteIsStatusOf : Obligations.StatusByteIsStatusOf := fun _ _ _ _ => statusField_of_response

/-- Settles O40: `INIT` by the context it leaves, `ZEROIZE` because it is the reset, the others by their frames;
an illegal word only answers. -/
theorem onlyInitAndZeroizeChangeValid : Obligations.OnlyInitAndZeroizeChangeValid := by
  intro w s t h
  refine ⟨fun hd => ?_, fun hd => ?_, fun hinit hzero => ?_⟩
  · rw [acceptCommand_of_command hd] at h
    exact (init_initialContext h).VALID
  · rw [acceptCommand_of_command hd] at h
    cases (exec_zeroize s).symm.trans h
    rfl
  · cases hd : decode w with
    | command i =>
      rw [acceptCommand_of_command hd] at h
      exact exec_VALID (fun hi => hinit (hi ▸ hd)) (fun hi => hzero (hi ▸ hd)) h
    | illegal why =>
      cases (acceptCommand_of_illegal hd s).symm.trans h
      rfl

end Sys2Proof.Machine

/-! SUPPORT. What a command can see (spec/10_state.md R29, R34, R38, spec/20_memory.md R55): from states with the
same context every command leaves the same context, and its response is decided by `VALID`, the compare unit and
its byte result; then the two statements. -/

namespace Sys2Proof.Machine

/-! ### The same context before, the same context after -/

theorem SameContext.of_kept {s s' t t' : State} (h : SameContext s s') (ht : SameContext s t)
    (ht' : SameContext s' t') : SameContext t t' := (ht.symm.trans h).trans ht'

theorem gated_sameContext {i : Instr} {body : State → State} {data : State → Byte} {s s' t t' : State}
    (hexec : ∀ s, exec i s = whenLive s fun s => (body s).respond .ok (data s))
    (hbody : SameContext (body s) (body s')) (h : SameContext s s') (ht : exec i s = .next t)
    (ht' : exec i s' = .next t') : SameContext t t' := by
  rw [hexec] at ht ht'
  have hV : s'.VALID = s.VALID := h.VALID
  cases hv : s.VALID with
  | true =>
    rw [whenLive_of_live hv] at ht
    rw [whenLive_of_live (hV.trans hv)] at ht'
    cases ht; cases ht'
    exact hbody.of_kept (respond_sameContext _ _ _) (respond_sameContext _ _ _)
  | false =>
    rw [whenLive_of_dead hv] at ht
    rw [whenLive_of_dead (hV.trans hv)] at ht'
    cases ht; cases ht'
    exact h.of_kept (respond_sameContext _ _ _) (respond_sameContext _ _ _)

theorem unit_rows {m : Mnemonic} (hm : m ∈ [.SETLA, .SETLB, .LCHK, .CMPZ, .CMPA, .CMPR]) :
    mayWriteArray m = false ∧ ∀ r ∈ mayWrite m, r ∈ [.T1, .T2, .LA, .LB, .CACC] := by
  revert hm
  cases m <;> decide

/-- The commands of the length check and the compare unit leave the context alone (spec/10_state.md R21). -/
theorem exec_keepsContext {i : Instr} {s t : State}
    (hi : i.mnemonic ∈ [.SETLA, .SETLB, .LCHK, .CMPZ, .CMPA, .CMPR]) (h : exec i s = .next t) :
    SameContext s t := by
  obtain ⟨harray, hrow⟩ := unit_rows hi
  exact ⟨exec_keepsArray harray h, (exec_frame h).mono hrow⟩

/-- What a command does to the context depends on nothing but the context. -/
theorem exec_sameContext {i : Instr} {s s' t t' : State} (h : SameContext s s') (ht : exec i s = .next t)
    (ht' : exec i s' = .next t') : SameContext t t' := by
  cases i with
  | init => exact (init_initialContext ht).sameContext (init_initialContext ht')
  | swap x y => exact gated_sameContext (exec_swap x y) (swap_sameContext x y h) h ht ht'
  | update => exact gated_sameContext exec_update (update_sameContext h) h ht ht'
  | whip => exact gated_sameContext exec_whip (whip_sameContext h) h ht ht'
  | crush => exact gated_sameContext exec_crush (crush_sameContext h) h ht ht'
  | shuffle => exact gated_sameContext exec_shuffle (shuffle_sameContext h) h ht ht'
  | absn n => exact gated_sameContext (exec_absn n) (absorbNibble_sameContext n h) h ht ht'
  | absb b => exact gated_sameContext (exec_absb b) (absorbByte_sameContext b h) h ht ht'
  | abss => exact gated_sameContext exec_abss (absorbStop_sameContext h) h ht ht'
  | output => exact gated_sameContext exec_output (output_sameContext h) h ht ht'
  | drip => exact gated_sameContext exec_drip (drip_sameContext h) h ht ht'
  | shufp => exact gated_sameContext exec_shufp (shuffleIfPending_sameContext h) h ht ht'
  | crypt d => exact gated_sameContext (exec_crypt d) (drip_sameContext h) h ht ht'
  | zeroize =>
    cases (exec_zeroize s).symm.trans ht
    cases (exec_zeroize s').symm.trans ht'
    exact (sameContext_iff _ _).2 ⟨fun _ => rfl, rfl, rfl, rfl, rfl, rfl, rfl, rfl⟩
  | _ =>
    exact h.of_kept (exec_keepsContext (by simp [Instr.mnemonic]) ht)
      (exec_keepsContext (by simp [Instr.mnemonic]) ht')

/-! ### The whole engine but the scratch registers -/

/-- The engines of two states agree in everything but the scratch registers (R29). -/
structure SameEngine (s t : State) : Prop where
  context : SameContext s t
  LA : t.LA = s.LA
  LB : t.LB = s.LB
  CACC : t.CACC = s.CACC

theorem sameEngine_iff (s t : State) :
    SameEngine s t ↔ KeepsArray s t ∧ KeepsRegisters [.T1, .T2] s t := by
  constructor
  · rintro ⟨⟨ha, hr⟩, hLA, hLB, hCACC⟩
    have hunit : KeepsRegisters [.LA, .LB, .CACC, .T1, .T2] s t := hr.mono (by decide)
    exact ⟨ha, ((hunit.of_cons (congrArg BitVec.toNat hLA)).of_cons (congrArg BitVec.toNat hLB)).of_cons
      (congrArg BitVec.toNat hCACC)⟩
  · rintro ⟨ha, hr⟩
    exact ⟨⟨ha, hr.mono (by decide)⟩, BitVec.eq_of_toNat_eq (hr .LA (by decide)),
      BitVec.eq_of_toNat_eq (hr .LB (by decide)), BitVec.eq_of_toNat_eq (hr .CACC (by decide))⟩

/-- The lengths and the accumulator are in no row but those of five commands (spec/10_state.md R30, R31). -/
theorem unit_notMem_mayWrite {m : Mnemonic} (h : m ∉ [.ZEROIZE, .SETLA, .SETLB, .CMPZ, .CMPA]) :
    .LA ∉ mayWrite m ∧ .LB ∉ mayWrite m ∧ .CACC ∉ mayWrite m := by
  revert h
  cases m <;> decide

/-- Commands that write neither length nor the accumulator leave them equal where they were equal. -/
theorem SameEngine.of_frames {m : Mnemonic} {s s' t t' : State} (h : SameEngine s s')
    (hm : m ∉ [.ZEROIZE, .SETLA, .SETLB, .CMPZ, .CMPA]) (hc : SameContext t t')
    (ht : KeepsRegisters (mayWrite m) s t) (ht' : KeepsRegisters (mayWrite m) s' t') : SameEngine t t' := by
  obtain ⟨hLA, hLB, hCACC⟩ := unit_notMem_mayWrite hm
  have hr := ((sameEngine_iff s s').1 h).2
  have hkept : ∀ r ∉ mayWrite m, r ∉ [RegName.T1, .T2] → t'.value r = t.value r := fun r hrow hscratch =>
    (ht' r hrow).trans ((hr r hscratch).trans (ht r hrow).symm)
  exact ⟨hc, BitVec.eq_of_toNat_eq (hkept .LA hLA (by decide)),
    BitVec.eq_of_toNat_eq (hkept .LB hLB (by decide)), BitVec.eq_of_toNat_eq (hkept .CACC hCACC (by decide))⟩

/-- What a command does to the engine depends on nothing but the engine without its scratch registers. -/
theorem exec_sameEngine {i : Instr} {s s' t t' : State} (h : SameEngine s s') (ht : exec i s = .next t)
    (ht' : exec i s' = .next t') : SameEngine t t' := by
  have hc := exec_sameContext h.context ht ht'
  cases i with
  | zeroize =>
    cases (exec_zeroize s).symm.trans ht
    cases (exec_zeroize s').symm.trans ht'
    exact ⟨hc, rfl, rfl, rfl⟩
  | setla len => cases ht; cases ht'; exact ⟨hc, rfl, h.LB, h.CACC⟩
  | setlb len => cases ht; cases ht'; exact ⟨hc, h.LA, rfl, h.CACC⟩
  | cmpz => cases ht; cases ht'; exact ⟨hc, h.LA, h.LB, rfl⟩
  | cmpa x y => cases ht; cases ht'; exact ⟨hc, h.LA, h.LB, congrArg (· ||| (x ^^^ y)) h.CACC⟩
  | _ => exact h.of_frames (by simp [Instr.mnemonic]) hc (exec_frame ht) (exec_frame ht')

/-! ### What decides a response -/

/-- The response of a command: the status of the decode order, and the byte result when it is `OK`. -/
theorem exec_response {i : Instr} {s t : State} {r : Word16} (ht : exec i s = .next t)
    (hr : t.responses = s.responses ++ [r]) : r = responseWord (statusOf (encode i) s)
      (if statusOf (encode i) s = .ok then byteResult i s t else 0x00) := by
  have hd := decode_encode i
  rcases response_by_status ((acceptCommand_of_command hd s).trans ht) hr with
    ⟨hst, hword, -⟩ | ⟨i', hok, hd', hword⟩
  · rw [if_neg hst, hword]
  · obtain rfl : i' = i := Decoded.command.inj (hd'.symm.trans hd)
    rw [hok, if_pos rfl, hword]

theorem statusOf_congr (w : Word32) {s s' : State} (hV : s.VALID = s'.VALID) (hLA : s.LA = s'.LA)
    (hLB : s.LB = s'.LB) : statusOf w s = statusOf w s' := by
  unfold statusOf
  rw [hV, hLA, hLB]

/-- Equal statuses and equal byte results make equal responses. -/
theorem exec_response_congr {i : Instr} {s s' t t' : State} {r r' : Word16} (hV : s.VALID = s'.VALID)
    (hLA : s.LA = s'.LA) (hLB : s.LB = s'.LB) (hdata : byteResult i s t = byteResult i s' t')
    (ht : exec i s = .next t) (hr : t.responses = s.responses ++ [r]) (ht' : exec i s' = .next t')
    (hr' : t'.responses = s'.responses ++ [r']) : r = r' := by
  rw [exec_response ht hr, exec_response ht' hr', statusOf_congr _ hV hLA hLB, hdata]

/-- But for `OUTPUT`, `DRIP` and `CRYPT` the byte result is the accumulator's or none. -/
theorem byteResult_of_accumulator {i : Instr} (hi : i.mnemonic ∉ [.OUTPUT, .DRIP, .CRYPT]) {s s' : State}
    (hCACC : s.CACC = s'.CACC) (t t' : State) : byteResult i s t = byteResult i s' t' := by
  cases i with
  | output | drip | crypt _ => exact absurd (by simp [Instr.mnemonic]) hi
  | cmpr => exact congrArg foldAccumulator hCACC
  | _ => rfl

theorem byteResult_congr (i : Instr) {s s' t t' : State} (hCACC : s.CACC = s'.CACC) (hZ : t.Z = t'.Z) :
    byteResult i s t = byteResult i s' t' := by
  cases i with
  | output | drip => exact hZ
  | crypt d => exact congrArg (d ^^^ ·) hZ
  | cmpr => exact congrArg foldAccumulator hCACC
  | _ => rfl

theorem SameEngine.exec_response {i : Instr} {s s' t t' : State} {r r' : Word16} (h : SameEngine s s')
    (ht : exec i s = .next t) (hr : t.responses = s.responses ++ [r]) (ht' : exec i s' = .next t')
    (hr' : t'.responses = s'.responses ++ [r']) : r = r' :=
  exec_response_congr h.context.VALID.symm h.LA.symm h.LB.symm
    (byteResult_congr i h.CACC.symm (exec_sameEngine h ht ht').context.Z.symm) ht hr ht' hr'

/-! ### The statements -/

/-- Settles O42: `VALID` and the lengths decide the status, and the accumulator the byte result. -/
theorem onlyOutputDripAndCryptRevealTheContext : Obligations.OnlyOutputDripAndCryptRevealTheContext :=
  fun _ _ _ t t' _ _ hi hV hLA hLB hCACC ht hr ht' hr' =>
    exec_response_congr hV hLA hLB (byteResult_of_accumulator hi hCACC t t') ht hr ht' hr'

/-- Settles O43: engines that agree but for the scratch registers answer alike and agree so again. -/
theorem scratchRegistersAreUnobservable : Obligations.ScratchRegistersAreUnobservable := by
  intro i s s' t t' r r' harray hregs ht hr ht' hr'
  have h : SameEngine s s' := (sameEngine_iff s s').2 ⟨harray, hregs⟩
  exact ⟨h.exec_response ht hr ht' hr', (sameEngine_iff t t').1 (exec_sameEngine h ht ht')⟩

end Sys2Proof.Machine

/-! SUPPORT. The command port (spec/30_encoding.md R70, R71; spec/70_reset_and_hazards.md R230, R250): one equation
for each kind of edge and of completed move, the step's machine on the completed moves, and an accepted word up to
its response; then the four statements. -/

namespace Sys2Proof.Machine

/-! ### One edge, by its inputs and what the port is doing -/

section Edges

variable {x : PortInputs}

theorem edge_reset (hrst : x.rst = true) (p : Port) : Port.edge x p = ⟨resetMove p.engine, .idle⟩ := by
  rw [Port.edge, if_pos hrst]

theorem edge_accept (hrst : x.rst = false) (hvalid : x.cmd_valid = true) (e : State) :
    Port.edge x ⟨e, .idle⟩ = ⟨e, .executing x.cmd_word (Config.latency x.cmd_word e)⟩ := by
  simp [Port.edge, hrst, hvalid]

theorem edge_wait (hrst : x.rst = false) (hvalid : x.cmd_valid = false) (e : State) :
    Port.edge x ⟨e, .idle⟩ = ⟨e, .idle⟩ := by
  simp [Port.edge, hrst, hvalid]

theorem edge_execute (hrst : x.rst = false) (e : State) (w : Word32) (n : Nat) :
    Port.edge x ⟨e, .executing w (n + 1)⟩ = ⟨e, .executing w n⟩ := by
  simp [Port.edge, hrst]

theorem edge_complete (hrst : x.rst = false) (e : State) (w : Word32) :
    Port.edge x ⟨e, .executing w 0⟩ = Port.complete ⟨e, .executing w 0⟩ w := by
  simp [Port.edge, hrst]

theorem edge_transfer (hrst : x.rst = false) (hready : x.rsp_ready = true) (e : State) (w : Word32)
    (r : Word16) : Port.edge x ⟨e, .responding w r⟩ = ⟨e.receive r, .idle⟩ := by
  simp [Port.edge, hrst, hready]

theorem edge_hold (hrst : x.rst = false) (hready : x.rsp_ready = false) (e : State) (w : Word32)
    (r : Word16) : Port.edge x ⟨e, .responding w r⟩ = ⟨e, .responding w r⟩ := by
  simp [Port.edge, hrst, hready]

theorem completedMove_reset (hrst : x.rst = true) (p : Port) : Port.completedMove x p = some .reset := by
  rw [Port.completedMove, if_pos hrst]

theorem completedMove_idle (hrst : x.rst = false) (e : State) : Port.completedMove x ⟨e, .idle⟩ = none := by
  simp [Port.completedMove, hrst]

theorem completedMove_executing (hrst : x.rst = false) (e : State) (w : Word32) (n : Nat) :
    Port.completedMove x ⟨e, .executing w n⟩ = none := by
  simp [Port.completedMove, hrst]

theorem completedMove_transfer (hrst : x.rst = false) (hready : x.rsp_ready = true) (e : State) (w : Word32)
    (r : Word16) : Port.completedMove x ⟨e, .responding w r⟩ = some (.command w) := by
  simp [Port.completedMove, hrst, hready]

theorem completedMove_hold (hrst : x.rst = false) (hready : x.rsp_ready = false) (e : State) (w : Word32)
    (r : Word16) : Port.completedMove x ⟨e, .responding w r⟩ = none := by
  simp [Port.completedMove, hrst, hready]

end Edges

/-! ### States equal but for the scratch registers -/

theorem sameButScratch_iff (s t : State) :
    SameButScratch s t ↔ SameEngine s t ∧ t.host = s.host ∧ t.responses = s.responses := by
  rw [sameEngine_iff, and_assoc]
  rfl

theorem SameButScratch.host {s t : State} (h : SameButScratch s t) : t.host = s.host :=
  ((sameButScratch_iff s t).1 h).2.1

theorem SameButScratch.responses {s t : State} (h : SameButScratch s t) : t.responses = s.responses :=
  ((sameButScratch_iff s t).1 h).2.2

/-- A reset leaves of two engines the same, so only the host's side has to agree before it. -/
theorem resetMove_sameButScratch {s t : State} (hhost : t.host = s.host) (hresp : t.responses = s.responses) :
    SameButScratch (resetMove s) (resetMove t) :=
  ⟨fun _ => rfl, fun r _ => by rw [resetMove_value, resetMove_value], hhost, hresp⟩

theorem exec_sameButScratch {i : Instr} {s s' t t' : State} (h : SameButScratch s s')
    (ht : exec i s = .next t) (ht' : exec i s' = .next t') : SameButScratch t t' := by
  obtain ⟨hengine, hhost, hresp⟩ := (sameButScratch_iff s s').1 h
  obtain ⟨u, r, hu, htHost, htResp⟩ := exec_answers i s
  obtain ⟨u', r', hu', htHost', htResp'⟩ := exec_answers i s'
  obtain rfl : u = t := Host.Outcome.next.inj (hu.symm.trans ht)
  obtain rfl : u' = t' := Host.Outcome.next.inj (hu'.symm.trans ht')
  obtain rfl : r = r' := hengine.exec_response ht htResp ht' htResp'
  exact (sameButScratch_iff u u').2 ⟨exec_sameEngine hengine ht ht', by rw [htHost, htHost', hhost],
    by rw [htResp, htResp', hresp]⟩

/-- A command word on two states equal but for the scratch registers leaves two such states. -/
theorem acceptCommand_sameButScratch {w : Word32} {s s' t t' : State} (h : SameButScratch s s')
    (ht : acceptCommand w s = .next t) (ht' : acceptCommand w s' = .next t') : SameButScratch t t' := by
  cases hd : decode w with
  | command i =>
    rw [acceptCommand_of_command hd] at ht ht'
    exact exec_sameButScratch h ht ht'
  | illegal why =>
    cases (acceptCommand_of_illegal hd s).symm.trans ht
    cases (acceptCommand_of_illegal hd s').symm.trans ht'
    obtain ⟨⟨hc, hLA, hLB, hCACC⟩, hhost, hresp⟩ := (sameButScratch_iff s s').1 h
    exact (sameButScratch_iff _ _).2 ⟨⟨hc.respond _ _, hLA, hLB, hCACC⟩, hhost,
      congrArg (· ++ [responseWord .illegalCommand 0x00]) hresp⟩

/-- While a port and a state agree the host's side of both is the same: a response presented and not yet
transferred is in neither. -/
theorem Port.agrees.interface {p : Port} {s : State} (h : p.agrees s) :
    p.engine.host = s.host ∧ p.engine.responses = s.responses := by
  obtain ⟨e, phase⟩ := p
  cases phase with
  | idle => exact ⟨h.host, h.responses⟩
  | executing w n => exact ⟨h.host, h.responses⟩
  | responding w r =>
    obtain ⟨t, ht, hsame⟩ := h
    obtain ⟨u, r', hu, hhost, hresp⟩ := acceptCommand_answers w s
    obtain rfl : u = t := Host.Outcome.next.inj (hu.symm.trans ht)
    have happend : e.responses ++ [r] = s.responses ++ [r'] := hsame.responses.trans hresp
    exact ⟨hsame.host.trans hhost, (List.append_inj' happend rfl).1⟩

/-! ### The step's machine on the completed moves -/

theorem playMoves_append (ms ns : List HostMove) (s : State) :
    playMoves (ms ++ ns) s = (playMoves ms s).bind (playMoves ns) := by
  induction ms generalizing s with
  | nil => rfl
  | cons m ms ih =>
    simp only [List.cons_append, playMoves]
    cases step (s.setHost [m]) with
    | next t => exact ih t
    | fault _ => rfl
    | refused _ => rfl

/-- Taking the one move of a stream that was empty leaves the state as it was. -/
theorem setHost_then_empty {s : State} (hs : s.host = []) (ms : List HostMove) :
    (s.setHost ms).setHost [] = s := by
  rw [← hs]
  rfl

theorem playMoves_reset {s : State} (hs : s.host = []) : playMoves [.reset] s = some (resetMove s) := by
  rw [playMoves, step_of_reset (setHost_host _ _), setHost_then_empty hs]
  rfl

theorem playMoves_command {w : Word32} {s t : State} (hs : s.host = []) (ht : acceptCommand w s = .next t) :
    playMoves [.command w] s = some t := by
  rw [playMoves, step_of_command (setHost_host _ _), setHost_then_empty hs, ht]
  rfl

/-- One edge: the move it completes, if any, takes the step's machine to a state the port agrees with again. -/
theorem edge_agrees (x : PortInputs) {p : Port} {s : State} (hs : s.host = []) (h : p.agrees s) :
    ∃ t, playMoves (Port.completedMove x p).toList s = some t ∧ t.host = [] ∧ (Port.edge x p).agrees t := by
  cases hrst : x.rst with
  | true =>
    obtain ⟨hhost, hresp⟩ := h.interface
    rw [completedMove_reset hrst, edge_reset hrst]
    exact ⟨_, playMoves_reset hs, hs, resetMove_sameButScratch hhost hresp⟩
  | false =>
    obtain ⟨e, phase⟩ := p
    cases phase with
    | idle =>
      rw [completedMove_idle hrst]
      cases hvalid : x.cmd_valid with
      | true => rw [edge_accept hrst hvalid]; exact ⟨s, rfl, hs, h⟩
      | false => rw [edge_wait hrst hvalid]; exact ⟨s, rfl, hs, h⟩
    | executing w n =>
      rw [completedMove_executing hrst]
      cases n with
      | succ n => rw [edge_execute hrst]; exact ⟨s, rfl, hs, h⟩
      | zero =>
        obtain ⟨e', r, haccept, hcomplete, -⟩ := complete_eq ⟨e, .executing w 0⟩ w
        obtain ⟨t, -, ht, -⟩ := acceptCommand_answers w s
        rw [edge_complete hrst, hcomplete]
        exact ⟨s, rfl, hs, t, ht, acceptCommand_sameButScratch h ht haccept⟩
    | responding w r =>
      cases hready : x.rsp_ready with
      | true =>
        obtain ⟨t, ht, hsame⟩ := h
        obtain ⟨u, r', hu, hhost, -⟩ := acceptCommand_answers w s
        obtain rfl : u = t := Host.Outcome.next.inj (hu.symm.trans ht)
        rw [completedMove_transfer hrst hready, edge_transfer hrst hready]
        exact ⟨u, playMoves_command hs ht, hhost.trans hs, hsame⟩
      | false => rw [completedMove_hold hrst hready, edge_hold hrst hready]; exact ⟨s, rfl, hs, h⟩

theorem edges_agree (xs : List PortInputs) {p : Port} {s : State} (hs : s.host = []) (h : p.agrees s) :
    ∃ t, playMoves (Port.completedMoves xs p) s = some t ∧ t.host = [] ∧ (Port.edges xs p).agrees t := by
  induction xs generalizing p s with
  | nil => exact ⟨s, rfl, hs, h⟩
  | cons x xs ih =>
    obtain ⟨m, hm, hmhost, hagrees⟩ := edge_agrees x hs h
    obtain ⟨t, ht, hthost, htagrees⟩ := ih hmhost hagrees
    refine ⟨t, ?_, hthost, htagrees⟩
    rw [Port.completedMoves, playMoves_append, hm]
    exact ht

/-! ### An accepted word up to its response (R250) -/

/-- What a port executing a word with `n` cycles left is after `n + 1` edges without a reset. -/
theorem edges_executing (e : State) (w : Word32) {n : Nat} {xs : List PortInputs} (hlen : xs.length = n + 1)
    (hrst : ∀ y ∈ xs, y.rst = false) :
    Port.edges xs ⟨e, .executing w n⟩ = Port.complete ⟨e, .executing w 0⟩ w := by
  induction n generalizing xs with
  | zero =>
    obtain ⟨y, rfl⟩ := List.length_eq_one_iff.1 hlen
    exact edge_complete (hrst y (by simp)) e w
  | succ n ih =>
    obtain ⟨y, ys, rfl⟩ := List.exists_cons_of_length_eq_add_one hlen
    have hstep : Port.edges (y :: ys) ⟨e, .executing w (n + 1)⟩ = Port.edges ys ⟨e, .executing w n⟩ :=
      congrArg (Port.edges ys) (edge_execute (hrst y (by simp)) e w n)
    rw [hstep]
    exact ih (Nat.succ.inj hlen) fun z hz => hrst z (by simp [hz])

/-! ### The port's outputs -/

theorem cmd_ready_iff (p : Port) : p.cmd_ready = true ↔ p.phase = .idle := by
  unfold Port.cmd_ready
  cases p.phase <;> simp

theorem rsp_valid_iff (p : Port) : p.rsp_valid = true ↔ ∃ w r, p.phase = .responding w r := by
  unfold Port.rsp_valid
  cases p.phase <;> simp

/-- While the port is not ready the host's command inputs are not read (R71). -/
theorem edge_ignores_command {p : Port} (h : p.cmd_ready = false) (x : PortInputs) (v : Bool) (w : Word32) :
    Port.edge { x with cmd_valid := v, cmd_word := w } p = Port.edge x p := by
  obtain ⟨e, phase⟩ := p
  cases phase with
  | idle => exact Bool.noConfusion h
  | executing w' n => cases n <;> rfl
  | responding w' r => rfl

/-- An executing port after an edge: still executing its word, or presenting the response the word gets. -/
theorem edge_executing_cases {x : PortInputs} (hrst : x.rst = false) (e : State) (w : Word32) (n : Nat) :
    (∃ m, Port.edge x ⟨e, .executing w n⟩ = ⟨e, .executing w m⟩) ∨
    ∃ e' r, Port.edge x ⟨e, .executing w n⟩ = ⟨e', .responding w r⟩ ∧
      acceptCommand w e = .next (e'.receive r) ∧ e'.responses = e.responses := by
  cases n with
  | succ n => exact .inl ⟨n, edge_execute hrst e w n⟩
  | zero =>
    obtain ⟨e', r, haccept, hcomplete, hresp⟩ := complete_eq ⟨e, .executing w 0⟩ w
    exact .inr ⟨e', r, (edge_complete hrst e w).trans hcomplete, haccept, hresp⟩

/-! ### The statements -/

/-- Settles O57: edge by edge, the moves completed take the step's machine where the port is. -/
theorem portRefinesTheStep : Obligations.PortRefinesTheStep := fun xs _ _ hs h => edges_agree xs hs h

/-- Settles O54: the equation of each kind of edge. -/
theorem portHoldsOneCommandAtATime : Obligations.PortHoldsOneCommandAtATime := by
  rintro ⟨e, phase⟩ x hrst
  refine ⟨fun hready hvalid => ?_, fun hready hvalid => ?_, fun w n hphase => ?_,
    fun hbusy v w => edge_ignores_command hbusy x v w, fun hrsp hready => ?_, fun hrsp hready => ?_⟩
  · obtain rfl : phase = .idle := (cmd_ready_iff _).1 hready
    rw [edge_accept hrst hvalid]
    exact ⟨rfl, rfl, _, rfl⟩
  · obtain rfl : phase = .idle := (cmd_ready_iff _).1 hready
    exact edge_wait hrst hvalid e
  · obtain rfl : phase = .executing w n := hphase
    rcases edge_executing_cases hrst e w n with ⟨m, hedge⟩ | ⟨e', r, hedge, haccept, hresp⟩
    · rw [hedge]
      exact ⟨rfl, .inl ⟨m, rfl, rfl⟩⟩
    · rw [hedge]
      exact ⟨rfl, .inr ⟨r, _, rfl, haccept, congrArg (· ++ [r]) hresp, rfl⟩⟩
  · obtain ⟨w, r, rfl⟩ := (rsp_valid_iff _).1 hrsp
    exact edge_hold hrst hready e w r
  · obtain ⟨w, r, rfl⟩ := (rsp_valid_iff _).1 hrsp
    exact ⟨r, rfl, edge_transfer hrst hready e w r⟩

/-- Settles O55: an edge with `rst` is the reset, with the port idle. -/
theorem portResetAbandonsEverything : Obligations.PortResetAbandonsEverything := by
  intro p x hrst
  rw [edge_reset hrst]
  exact ⟨resetMove_read _, resetMove_value _, resetMove_responses _, rfl, rfl⟩

/-- Settles O56: the number of edges is one more than the latency of the accepted word. -/
theorem portAnswersEveryAcceptedWord : Obligations.PortAnswersEveryAcceptedWord := by
  rintro ⟨e, phase⟩ x hready hrst hvalid
  obtain rfl : phase = .idle := (cmd_ready_iff _).1 hready
  obtain ⟨e', r, haccept, hcomplete, hresp⟩ := complete_eq ⟨e, .executing x.cmd_word 0⟩ x.cmd_word
  refine ⟨Config.latency x.cmd_word e + 1, r, _, Nat.le_add_left 1 _, haccept, congrArg (· ++ [r]) hresp,
    fun xs hlen hxs => ?_⟩
  rw [edge_accept hrst hvalid, edges_executing e x.cmd_word hlen hxs, hcomplete]
  exact ⟨rfl, rfl⟩

end Sys2Proof.Machine

/-! SUPPORT. Series of commands (spec/30_encoding.md R79, spec/60_exceptions.md R206): a series on a live context
runs through, and the series of `SETUP` and `SETUPN` (spec/42_protocol.md R142, R143) end in the context their bodies
give; then the three statements about them and about splitting hash input (R147). -/

namespace Sys2Proof.Machine

/-! ### One command of a series -/

theorem issue_completed {i : Instr} {s t : State} {r : Word16} (h : Completes i s t r) :
    issue i s = some (t, r) := issue_of_completes (decode_encode i) h

theorem runsThrough_single {i : Instr} {s t : State} {r : Word16} (h : Completes i s t r)
    (h0 : statusField r = 0x00) : RunsThrough [i] s t [r] :=
  runsThrough_cons (issue_completed h) h0 (runsThrough_nil t)

theorem issueAll_cons_of_ok {i : Instr} {is : List Instr} {s t u : State} {r : Word16} {rs : List Word16}
    (h : issue i s = some (t, r)) (h0 : statusField r = 0x00) (k : issueAll is t = some (u, rs)) :
    issueAll (i :: is) s = some (u, r :: rs) := by
  simp [issueAll, h, h0, k, Status.code]

/-- The host stops at a response whose status is not `OK` (R206). -/
theorem issueAll_cons_of_refused {i : Instr} {is : List Instr} {s t : State} {r : Word16}
    (h : issue i s = some (t, r)) (h0 : statusField r ≠ 0x00) : issueAll (i :: is) s = some (t, [r]) := by
  rw [issueAll, h]
  exact if_neg h0

/-! ### Series of commands that need a context -/

/-- A command that needs a context completes with `OK` on a live one and leaves it live. -/
theorem gated_completes {i : Instr} {s : State} (hneeds : i.mnemonic.needsValid = true)
    (hlive : s.VALID = true) : ∃ t d, Completes i s t (responseWord .ok d) ∧ t.VALID = true := by
  obtain ⟨t, ht⟩ := exec_completes (i := i) (s := s) (fun _ => hlive) fun hi => by
    rw [hi] at hneeds
    exact Bool.noConfusion hneeds
  refine ⟨t, _, ht, (exec_VALID ?_ ?_ ht.1).trans hlive⟩
  all_goals
    rintro rfl
    exact Bool.noConfusion hneeds

/-- A series of commands that need a context runs through on a live one and leaves it live. -/
theorem gated_runsThrough {is : List Instr} (his : ∀ i ∈ is, i.mnemonic.needsValid = true) {s : State}
    (hlive : s.VALID = true) : ∃ t rs, RunsThrough is s t rs ∧ rs.length = is.length ∧ t.VALID = true := by
  induction is generalizing s with
  | nil => exact ⟨s, [], runsThrough_nil s, rfl, hlive⟩
  | cons i is ih =>
    obtain ⟨m, d, hm, hmlive⟩ := gated_completes (his i (by simp)) hlive
    obtain ⟨t, rs, hrun, hlen, ht⟩ := ih (fun j hj => his j (by simp [hj])) hmlive
    exact ⟨t, _, runsThrough_cons (issue_completed hm) (statusField_responseWord .ok d) hrun,
      by rw [List.length_cons, List.length_cons, hlen], ht⟩

theorem absorb_gated {bs : List Byte} : ∀ i ∈ absorb bs, i.mnemonic.needsValid = true := by
  intro i hi
  obtain ⟨b, -, rfl⟩ := List.mem_map.1 hi
  rfl

/-- What two lists have member by member, their concatenation has. -/
theorem gated_append {is js : List Instr} (his : ∀ i ∈ is, i.mnemonic.needsValid = true)
    (hjs : ∀ j ∈ js, j.mnemonic.needsValid = true) : ∀ i ∈ is ++ js, i.mnemonic.needsValid = true :=
  fun i hi => (List.mem_append.1 hi).elim (his i) (hjs i)

/-- The commands of `HFINAL` before its drips (spec/42_protocol.md R148). -/
theorem finalAbsorb_gated {len : Byte} :
    ∀ i ∈ [Instr.abss, Instr.absb len, Instr.shufp], i.mnemonic.needsValid = true := by
  simp [Instr.mnemonic, Mnemonic.needsValid]

theorem hashFinal_gated {len : Byte} : ∀ i ∈ hashFinal len, i.mnemonic.needsValid = true :=
  gated_append finalAbsorb_gated fun _ hi => List.eq_of_mem_replicate hi ▸ rfl

/-! ### Bodies in series, on any state with a given context -/

/-- A command whose answer has no data byte leaves, from any state with the context of `u`, the context its body
leaves of `u`. -/
theorem body_runsThrough {i : Instr} {body : State → State}
    (hexec : ∀ s, exec i s = whenLive s fun s => (body s).respond .ok 0x00)
    (hkeeps : ∀ s, KeepsInterface s (body s))
    (hbody : ∀ {s t}, SameContext s t → SameContext (body s) (body t)) {u s : State} (h : SameContext u s)
    (hlive : u.VALID = true) : ∃ t, RunsThrough [i] s t [0x0000] ∧ SameContext (body u) t :=
  ⟨_, runsThrough_single (completes_of_live (hexec s) (hkeeps s) (h.VALID.trans hlive)) rfl,
    (hbody h).trans (respond_sameContext _ _ _)⟩

/-- The bodies of the bytes of a buffer, lowest index first (spec/41_absorb_squeeze.md R125). -/
def absorbBytes : List Byte → State → State
  | [], s => s
  | b :: bs, s => absorbBytes bs (absorbByte b s)

theorem absorbBytes_preserves {P : State → Prop} (hb : ∀ b s, P s → P (absorbByte b s)) (bs : List Byte)
    {s : State} (h : P s) : P (absorbBytes bs s) := by
  induction bs generalizing s with
  | nil => exact h
  | cons b bs ih => exact ih (hb b s h)

theorem absorbBytes_VALID (bs : List Byte) {s : State} (hlive : s.VALID = true) :
    (absorbBytes bs s).VALID = true :=
  absorbBytes_preserves (P := fun t => t.VALID = true)
    (fun b t ht => (absorbByte_interface b t).VALID.trans ht) bs hlive

theorem LiveInv.absorbBytes {s : State} (h : LiveInv s) (bs : List Byte) : LiveInv (absorbBytes bs s) :=
  absorbBytes_preserves (P := LiveInv) (fun b _ ht => ht.absorbByte b) bs h

theorem absorb_runsThrough (bs : List Byte) {u s : State} (h : SameContext u s) (hlive : u.VALID = true) :
    ∃ t, RunsThrough (absorb bs) s t (List.replicate bs.length 0x0000) ∧ SameContext (absorbBytes bs u) t := by
  induction bs generalizing u s with
  | nil => exact ⟨s, runsThrough_nil s, h⟩
  | cons b bs ih =>
    obtain ⟨m, hm, hmctx⟩ := body_runsThrough (exec_absb b) (absorbByte_interface b)
      (absorbByte_sameContext b) h hlive
    obtain ⟨t, ht, htctx⟩ := ih hmctx ((absorbByte_interface b u).VALID.trans hlive)
    exact ⟨t, runsThrough_append hm ht, htctx⟩

theorem abss_runsThrough {u s : State} (h : SameContext u s) (hlive : u.VALID = true) :
    ∃ t, RunsThrough [.abss] s t [0x0000] ∧ SameContext (absorbStop u) t :=
  body_runsThrough exec_abss absorbStop_interface absorbStop_sameContext h hlive

theorem shufp_runsThrough {u s : State} (h : SameContext u s) (hlive : u.VALID = true) :
    ∃ t, RunsThrough [.shufp] s t [0x0000] ∧ SameContext (shuffleIfPending u) t :=
  body_runsThrough exec_shufp shuffleIfPending_interface shuffleIfPending_sameContext h hlive

theorem init_runsThrough (s : State) : ∃ t, RunsThrough [.init] s t [0x0000] ∧ InitialContext t := by
  obtain ⟨t, ht⟩ := init_completes s
  exact ⟨t, runsThrough_single ht rfl, init_initialContext ht.1⟩

/-- An initial context, to compare others with: that of the reset state after `INIT`. -/
theorem exists_initialContext : ∃ u, InitialContext u ∧ LiveInv u := by
  obtain ⟨u, hu⟩ := init_completes State.reset
  have hctx := init_initialContext hu.1
  exact ⟨u, hctx, (init_inv hu.1).liveInv hctx.VALID⟩

/-! ### `SETUP` and `SETUPN` -/

/-- A key absorbed into a fresh context. -/
theorem keyed_runsThrough {u : State} (hu : InitialContext u) (key : List Byte) (s : State) :
    ∃ t, RunsThrough (.init :: absorb key) s t (List.replicate (key.length + 1) 0x0000) ∧
      SameContext (absorbBytes key u) t := by
  obtain ⟨m, hm, hminit⟩ := init_runsThrough s
  obtain ⟨t, ht, htctx⟩ := absorb_runsThrough key (hu.sameContext hminit) hu.VALID
  exact ⟨t, runsThrough_append hm ht, htctx⟩

theorem setup_runsThrough {u : State} (hu : InitialContext u) (key : List Byte) (s : State) :
    ∃ t, RunsThrough (setup key) s t (List.replicate (key.length + 2) 0x0000) ∧
      SameContext (shuffleIfPending (absorbBytes key u)) t := by
  obtain ⟨m, hm, hmctx⟩ := keyed_runsThrough hu key s
  obtain ⟨t, ht, htctx⟩ := shufp_runsThrough hmctx (absorbBytes_VALID key hu.VALID)
  refine ⟨t, ?_, htctx⟩
  rw [List.replicate_succ']
  exact runsThrough_append hm ht

theorem setupWithNonce_runsThrough {u : State} (hu : InitialContext u) (key nonce : List Byte) (s : State) :
    ∃ t rs, RunsThrough (setupWithNonce key nonce) s t rs ∧
      SameContext (shuffleIfPending (absorbBytes nonce (absorbStop (absorbBytes key u)))) t := by
  obtain ⟨m, hm, hmctx⟩ := keyed_runsThrough hu key s
  have hlive := absorbBytes_VALID key hu.VALID
  obtain ⟨n, hn, hnctx⟩ := abss_runsThrough hmctx hlive
  have hlive' := (absorbStop_interface _).VALID.trans hlive
  obtain ⟨k, hk, hkctx⟩ := absorb_runsThrough nonce hnctx hlive'
  obtain ⟨t, ht, htctx⟩ := shufp_runsThrough hkctx (absorbBytes_VALID nonce hlive')
  exact ⟨t, _, runsThrough_append (runsThrough_append hm (runsThrough_append hn hk)) ht, htctx⟩

/-! ### The counter while a key is absorbed (R120, R143) -/

/-- A nibble counts up by one, modulo 128: the shuffle of a saturated counter takes 128 to 0. -/
theorem absorbNibble_A_mod (n : Nibble) (s : State) :
    (absorbNibble n s).A.toNat % 128 = (s.A.toNat + 1) % 128 := by
  rw [absorbNibble_A, shuffleIfSaturated_A]
  split
  next hsat => rw [hsat]; decide
  next hne => bv_omega

theorem absorbByte_A_mod (b : Byte) (s : State) :
    (absorbByte b s).A.toNat % 128 = (s.A.toNat + 2) % 128 := by
  have hlow := absorbNibble_A_mod (lowNibble b) s
  have hhigh := absorbNibble_A_mod (highNibble b) (absorbNibble (lowNibble b) s)
  rw [absorbByte_eq]
  omega

theorem absorbBytes_A_mod (bs : List Byte) (s : State) :
    (absorbBytes bs s).A.toNat % 128 = (s.A.toNat + 2 * bs.length) % 128 := by
  induction bs generalizing s with
  | nil => rfl
  | cons b bs ih =>
    have hbyte := absorbByte_A_mod b s
    have hrest := ih (absorbByte b s)
    rw [absorbBytes, List.length_cons]
    omega

/-! ### A shuffle does not read the counter (R105) -/

theorem setA_setA (v v' : Byte) (s : State) : (s.setA v).setA v' = s.setA v' := rfl

theorem update_setA (v : Byte) (s : State) : update (s.setA v) = (update s).setA v := rfl

theorem compareExchange_setA (n v : Byte) (s : State) :
    compareExchange n (s.setA v) = (compareExchange n s).setA v := by
  unfold compareExchange
  rw [setA_S]
  split <;> rfl

theorem whip_setA (v : Byte) (s : State) : whip (s.setA v) = (whip s).setA v := by
  have hiter := Function.Commute.iterate_left (f := update) (g := fun s => s.setA v) (update_setA v) 512 s
  rw [whip_eq, whip_eq, hiter]
  generalize Nat.iterate update 512 s = t
  rfl

theorem crush_setA (v : Byte) (s : State) : crush (s.setA v) = (crush s).setA v := by
  unfold crush
  generalize List.range 128 = ns
  induction ns generalizing s with
  | nil => rfl
  | cons n ns ih => rw [List.foldl_cons, List.foldl_cons, compareExchange_setA, ih]

theorem shuffle_setA (v : Byte) (s : State) : shuffle (s.setA v) = shuffle s := by
  rw [shuffle_eq, shuffle_eq, whip_setA, crush_setA, whip_setA, crush_setA, whip_setA, setA_setA]

/-- With nibbles pending and the counter not saturated, an `ABSS` before the shuffle is not seen after it. -/
theorem shuffleIfPending_absorbStop {s : State} (h0 : 0 < s.A.toNat) (h128 : s.A.toNat < 128) :
    shuffleIfPending (absorbStop s) = shuffleIfPending s := by
  have hunsaturated : shuffleIfSaturated s = s := if_neg (by bv_omega)
  have hpending : s.A > 0x00 := h0
  have hpending' : (s.setA (s.A + 1)).A > 0x00 := by
    rw [setA_A]
    bv_omega
  rw [absorbStop_eq, hunsaturated, shuffleIfPending, shuffleIfPending, if_pos hpending', if_pos hpending,
    shuffle_setA]

/-! ### The statements -/

/-- Settles O44: from a fresh context the bodies keep a live one, and the last of them leaves the counter 0; with
nothing absorbed it finds nothing pending. -/
theorem setupGivesAReadyContext : Obligations.SetupGivesAReadyContext := by
  intro key s
  obtain ⟨u, hu, hulive⟩ := exists_initialContext
  obtain ⟨t, ht, hctx⟩ := setup_runsThrough hu key s
  have hV := (shuffleIfPending_interface _).VALID.trans (absorbBytes_VALID key hu.VALID)
  refine ⟨t, _, ht.1, rfl, hctx.VALID.trans hV, hctx.A.trans (shuffleIfPending_A _),
    (hulive.absorbBytes key).shuffleIfPending.context.of_sameContext hctx, ?_⟩
  rintro rfl
  have hempty : SameContext u t := by rwa [absorbBytes, shuffleIfPending_of_zero hu.A] at hctx
  obtain ⟨hread, hI, hJ, hK, hZ, -, hW, -⟩ := (sameContext_iff u t).1 hempty
  exact ⟨fun v => (hread v).trans (hu.array v), hI.trans hu.I, hJ.trans hu.J, hK.trans hu.K, hZ.trans hu.Z,
    hW.trans hu.W⟩

/-- Settles O45: after such a key the counter is neither 0 nor saturated, so the stop of an empty nonce only counts
up, and the shuffle that follows does not see the count. -/
theorem emptyNonceEqualsPlainSetup : Obligations.EmptyNonceEqualsPlainSetup := by
  intro key s s' _ hmod
  obtain ⟨u, hu, hulive⟩ := exists_initialContext
  obtain ⟨t, ht, hctx⟩ := setup_runsThrough hu key s
  obtain ⟨t', rs, ht', hctx'⟩ := setupWithNonce_runsThrough hu key [] s'
  have hle := (hulive.absorbBytes key).context.counter
  have hcount : (absorbBytes key u).A.toNat % 128 = 2 * key.length % 128 := by
    rw [absorbBytes_A_mod, hu.A]
    exact congrArg (· % 128) (Nat.zero_add _)
  have hstop : shuffleIfPending (absorbStop (absorbBytes key u)) = shuffleIfPending (absorbBytes key u) :=
    shuffleIfPending_absorbStop (by omega) (by omega)
  rw [absorbBytes, hstop] at hctx'
  exact ⟨t, _, t', _, ht.1, ht'.1, hctx.symm.trans hctx'⟩

/-- Settles O49: the two updates and the one are the same commands, and all of them run through. -/
theorem hashUpdateIsChunkingInvariant : Obligations.HashUpdateIsChunkingInvariant := by
  intro x y len s hlive
  obtain ⟨a, as, ha, -, halive⟩ := gated_runsThrough (absorb_gated (bs := x)) hlive
  obtain ⟨b, bs, hb, -⟩ := gated_runsThrough
    (gated_append (absorb_gated (bs := y)) (hashFinal_gated (len := len))) halive
  have hwhole := runsThrough_append ha hb
  rw [← List.append_assoc, absorb, absorb, ← List.map_append] at hwhole
  exact ⟨a, as, b, bs, b, _, ha.1, hb.1, hwhole.1, rfl, rfl⟩

end Sys2Proof.Machine

/-! SUPPORT. The sequences over buffers (spec/42_protocol.md R144, R145, R149, R153; spec/43_random.md R172;
spec/44_utility.md R187): the length check, the keystream of a context, the accumulator over two buffers, the one-shot
sequences and the rejection loop; then the six statements. -/

namespace Sys2Proof.Machine

/-! ### The length check at the head of a sequence (R144, R187) -/

theorem ofNat24_ne {m n : Nat} (hm : m < 2 ^ 24) (hn : n < 2 ^ 24) (h : m ≠ n) :
    BitVec.ofNat 24 m ≠ BitVec.ofNat 24 n := by
  intro heq
  have hnat := congrArg BitVec.toNat heq
  rw [BitVec.toNat_ofNat, BitVec.toNat_ofNat, Nat.mod_eq_of_lt hm, Nat.mod_eq_of_lt hn] at hnat
  exact h hnat

/-- The commands at the head of `CRYPTBUF` and `COMPARE`. -/
def lengthCheck (a b : Word24) : List Instr := [.setla a, .setlb b, .lchk]

/-- The state after both lengths are set. -/
def withLengths (a b : Word24) (s : State) : State :=
  (((s.setLA a).respond .ok 0x00).setLB b).respond .ok 0x00

theorem withLengths_sameContext (a b : Word24) (s : State) : SameContext s (withLengths a b s) :=
  ((setLA_sameContext s a).trans (respond_sameContext _ _ _)).trans
    ((setLB_sameContext _ b).trans (respond_sameContext _ _ _))

theorem issue_setla (a : Word24) (s : State) :
    issue (.setla a) s = some ((s.setLA a).respond .ok 0x00, 0x0000) := issue_completed (setla_completes a s)

theorem issue_setlb (b : Word24) (s : State) :
    issue (.setlb b) s = some ((s.setLB b).respond .ok 0x00, 0x0000) := issue_completed (setlb_completes b s)

/-- With equal lengths the check passes and the context is as before. -/
theorem lengthCheck_runsThrough (a : Word24) (s : State) : ∃ t,
    RunsThrough (lengthCheck a a) s t [0x0000, 0x0000, 0x0000] ∧ SameContext s t := by
  have hcheck : Completes .lchk (withLengths a a s) ((withLengths a a s).respond .ok 0x00) 0x0000 :=
    ⟨exec_lchk_of_eq rfl, rfl, rfl⟩
  exact ⟨_, runsThrough_cons (issue_setla a s) rfl (runsThrough_cons (issue_setlb a _) rfl
    (runsThrough_single hcheck rfl)), (withLengths_sameContext a a s).trans (respond_sameContext _ _ _)⟩

/-- With different lengths the host stops at the check, whatever follows, and the context is as before. -/
theorem lengthCheck_stops {a b : Word24} (h : a ≠ b) (is : List Instr) (s : State) : ∃ t,
    issueAll (lengthCheck a b ++ is) s = some (t, [0x0000, 0x0000, 0x0100]) ∧
      SameContext s t := by
  have hcheck : Completes .lchk (withLengths a b s) ((withLengths a b s).raise .lengthMismatch) 0x0100 :=
    ⟨exec_lchk_of_ne h, rfl, rfl⟩
  exact ⟨_, issueAll_cons_of_ok (issue_setla a s) rfl (issueAll_cons_of_ok (issue_setlb b _) rfl
    (issueAll_cons_of_refused (issue_completed hcheck) (by decide))),
    (withLengths_sameContext a b s).trans (respond_sameContext _ _ _)⟩

theorem fitsLength_of_lt {n : Nat} (h : n < 2 ^ 24) : fitsLength n = true := decide_eq_true h

theorem runCryptBuf_eq {input : List Byte} {outlen : Nat} (hin : input.length < 2 ^ 24)
    (hout : outlen < 2 ^ 24) (s : State) : runCryptBuf input outlen s = issueAll
      (lengthCheck (BitVec.ofNat 24 input.length) (BitVec.ofNat 24 outlen) ++ input.map Instr.crypt) s := by
  simp [runCryptBuf, cryptBuf, fitsLength_of_lt hin, fitsLength_of_lt hout, lengthCheck]

/-- The commands of `COMPARE` after its length check (R187). -/
def comparison (a b : List Byte) : List Instr := Instr.cmpz :: List.zipWith .cmpa a b ++ [Instr.cmpr]

theorem runCompare_eq {a b : List Byte} (ha : a.length < 2 ^ 24) (hb : b.length < 2 ^ 24) (s : State) :
    runCompare a b s = issueAll
      (lengthCheck (BitVec.ofNat 24 a.length) (BitVec.ofNat 24 b.length) ++ comparison a b) s := by
  simp [runCompare, compareBuffers, fitsLength_of_lt ha, fitsLength_of_lt hb, lengthCheck, comparison]

/-! ### The keystream of a context (R141, R145) -/

/-- The bytes of the next `n` drips. -/
def keystream : Nat → State → List Byte
  | 0, _ => []
  | n + 1, s => (drip s).Z :: keystream n (drip s)

/-- A buffer combined with the keystream, byte by byte. -/
def combined (input : List Byte) (s : State) : List Byte :=
  List.zipWith (· ^^^ ·) input (keystream input.length s)

@[simp] theorem keystream_length (n : Nat) (s : State) : (keystream n s).length = n := by
  induction n generalizing s with
  | zero => rfl
  | succ n ih => rw [keystream, List.length_cons, ih]

theorem keystream_sameContext (n : Nat) {s t : State} (h : SameContext s t) : keystream n s = keystream n t := by
  induction n generalizing s t with
  | zero => rfl
  | succ n ih => rw [keystream, keystream, (drip_sameContext h).Z, ih (drip_sameContext h)]

theorem keystream_add (m n : Nat) (s : State) :
    keystream (m + n) s = keystream m s ++ keystream n (drip^[m] s) := by
  induction m generalizing s with
  | zero => rw [Nat.zero_add]; rfl
  | succ m ih => rw [Nat.succ_add, keystream, ih, keystream, List.cons_append, Function.iterate_succ_apply]

theorem iterate_drip_sameContext (n : Nat) {s t : State} (h : SameContext s t) :
    SameContext (drip^[n] s) (drip^[n] t) := by
  induction n generalizing s t with
  | zero => exact h
  | succ n ih => exact ih (drip_sameContext h)

@[simp] theorem combined_length (input : List Byte) (s : State) : (combined input s).length = input.length := by
  simp [combined]

theorem combined_sameContext (input : List Byte) {s t : State} (h : SameContext s t) :
    combined input s = combined input t := by
  rw [combined, combined, keystream_sameContext _ h]

theorem combined_append (x y : List Byte) (s : State) :
    combined (x ++ y) s = combined x s ++ combined y (drip^[x.length] s) := by
  rw [combined, List.length_append, keystream_add, List.zipWith_append (keystream_length _ _).symm]
  rfl

theorem zipWith_xor_twice (ds ks : List Byte) (h : ds.length = ks.length) :
    List.zipWith (· ^^^ ·) (List.zipWith (· ^^^ ·) ds ks) ks = ds := by
  induction ds generalizing ks with
  | nil => rfl
  | cons d ds ih =>
    cases ks with
    | nil => exact absurd h (by simp)
    | cons k ks => simp [ih ks (by simpa using h)]

/-- Combining with the keystream of one context twice gives the buffer back. -/
theorem combined_twice (input : List Byte) (s : State) : combined (combined input s) s = input := by
  rw [combined, combined_length]
  exact zipWith_xor_twice _ _ (keystream_length _ _).symm

/-- `CRYPT` over a buffer answers the buffer combined with the keystream of the context. -/
theorem crypts_runThrough (input : List Byte) {s : State} (hlive : s.VALID = true) :
    ∃ t, RunsThrough (input.map .crypt) s t ((combined input s).map (responseWord .ok)) ∧
      SameContext (drip^[input.length] s) t ∧ t.VALID = true := by
  induction input generalizing s with
  | nil => exact ⟨s, runsThrough_nil s, .refl s, hlive⟩
  | cons d ds ih =>
    have hd := crypt_completes d hlive
    have hctx := respond_sameContext (drip s) .ok (d ^^^ (drip s).Z)
    obtain ⟨t, ht, htctx, htlive⟩ := ih (hctx.VALID.trans ((drip_interface s).VALID.trans hlive))
    refine ⟨t, ?_, (iterate_drip_sameContext ds.length hctx).trans htctx, htlive⟩
    rw [← combined_sameContext ds hctx] at ht
    exact runsThrough_cons (issue_completed hd) (statusField_responseWord .ok _) ht

/-- `CRYPTBUF` with equal lengths on a live context (R144). -/
theorem runCryptBuf_live {input : List Byte} (hlen : input.length < 2 ^ 24) {s : State}
    (hlive : s.VALID = true) : ∃ t rs, runCryptBuf input input.length s = some (t, rs) ∧
      cryptBytes rs = combined input s ∧ SameContext (drip^[input.length] s) t ∧ t.VALID = true := by
  obtain ⟨m, hm, hmctx⟩ := lengthCheck_runsThrough (BitVec.ofNat 24 input.length) s
  obtain ⟨t, ht, htctx, htlive⟩ := crypts_runThrough input (hmctx.VALID.trans hlive)
  refine ⟨t, _, (runCryptBuf_eq hlen hlen s).trans (runsThrough_append hm ht).1, ?_,
    (iterate_drip_sameContext _ hmctx).trans htctx, htlive⟩
  rw [combined_sameContext input hmctx]
  exact map_dataField_responseWord .ok _

/-! ### The accumulator over two buffers (R185, R187) -/

/-- `CMPA` over two buffers of one length: the accumulator stays 0 exactly when it was 0 and they are equal. -/
theorem cmpas_runThrough (a b : List Byte) (hlen : a.length = b.length) (s : State) :
    ∃ t rs, RunsThrough (List.zipWith .cmpa a b) s t rs ∧ SameContext s t ∧
      (t.CACC = 0 ↔ s.CACC = 0 ∧ a = b) := by
  induction a generalizing b s with
  | nil =>
    obtain rfl := List.length_eq_zero_iff.1 hlen.symm
    exact ⟨s, [], runsThrough_nil s, .refl s, by simp⟩
  | cons x a ih =>
    obtain ⟨y, b, rfl⟩ := List.exists_cons_of_length_eq_add_one hlen.symm
    have hfirst := cmpa_completes x y s
    obtain ⟨t, rs, ht, hctx, hzero⟩ := ih b (Nat.succ.inj hlen) _
    refine ⟨t, _, runsThrough_cons (issue_completed hfirst) rfl ht,
      ((setCACC_sameContext s _).trans (respond_sameContext _ _ _)).trans hctx, ?_⟩
    rw [hzero, respond_CACC, setCACC_CACC, List.cons.injEq, ← and_assoc]
    exact and_congr_left' (BitVec.or_eq_zero_iff.trans (and_congr_right' BitVec.xor_eq_zero_iff))

/-- `COMPARE` after its length check. -/
theorem comparison_runsThrough (a b : List Byte) (hlen : a.length = b.length) (s : State) :
    ∃ t rs, RunsThrough (comparison a b) s t rs ∧ SameContext s t ∧
      rs.getLast? = some (if a = b then 0x0000 else 0x0001) := by
  have hclear := cmpz_completes s
  obtain ⟨m, rs, hm, hmctx, hzero⟩ := cmpas_runThrough a b hlen ((s.setCACC 0x00).respond .ok 0x00)
  have hresult := cmpr_completes m
  have hequal : m.CACC = 0 ↔ a = b := hzero.trans (and_iff_right rfl)
  refine ⟨_, _, runsThrough_append (runsThrough_cons (issue_completed hclear) rfl hm)
    (runsThrough_single hresult (statusField_responseWord .ok _)),
    (((setCACC_sameContext s _).trans (respond_sameContext _ _ _)).trans hmctx).trans
      (respond_sameContext _ _ _), ?_⟩
  rw [List.getLast?_concat, foldAccumulator_eq, if_congr hequal rfl rfl]
  split <;> rfl

/-! ### One-shot sequences (R149, R153) -/

/-- The one-shot sequence `is` with the commands `before`, `n` of them, up to its drips: every response is `OK`,
the digest is the bytes of `len` drips from the state `before` leaves, and nothing is left after it. -/
def OneShot (is before : List Instr) (n : Nat) (len : Byte) (s : State) : Prop :=
  ∃ t rs m as d ds, issueAll is s = some (t, rs) ∧ (∀ r ∈ rs, statusField r = 0x00) ∧
    rs.length = n + len.toNat + 1 ∧ issueAll before s = some (m, as) ∧
    issueAll (List.replicate len.toNat .drip) m = some (d, ds) ∧ ds.length = len.toNat ∧
    rs = as ++ ds ++ [0x0000] ∧ digestBytes n len rs = ds.map dataField ∧
    (∀ v : Byte, t.S.read v = 0) ∧ ∀ r, t.value r = 0

/-- An `INIT`, commands that need the context it makes, the drips and a `ZEROIZE` are a one-shot sequence. -/
theorem oneShot_of_gated {is before gs : List Instr} {n : Nat} {len : Byte}
    (hgs : ∀ i ∈ gs, i.mnemonic.needsValid = true) (hbefore : before = Instr.init :: gs)
    (his : is = before ++ List.replicate len.toNat Instr.drip ++ [Instr.zeroize])
    (hn : n = gs.length + 1) (s : State) : OneShot is before n len s := by
  subst hbefore his hn
  obtain ⟨m₀, hinit, hm₀⟩ := init_runsThrough s
  obtain ⟨m, as, hm, hlen, hmlive⟩ := gated_runsThrough hgs hm₀.VALID
  obtain ⟨d, bs, hd, hbs, -⟩ := drips_runThrough len.toNat hmlive
  have hcontext := runsThrough_append hinit hm
  have hall := runsThrough_append (runsThrough_append hcontext hd)
    (runsThrough_single (zeroize_completes d) rfl)
  refine ⟨_, _, m, _, d, _, hall.1, hall.2, ?_, hcontext.1, hd.1, by simp [hbs], rfl, ?_, resetMove_read d,
    fun r => by rw [respond_value, resetMove_value]⟩
  · simp [hlen, hbs]
    omega
  · simp [digestBytes, hlen, ← hbs]

theorem hash_oneShot (msg : List Byte) (len : Byte) (s : State) : OneShot (hashOneShot msg len)
    (Instr.init :: absorb msg ++ [Instr.abss, Instr.absb len, Instr.shufp]) (msg.length + 4) len s :=
  oneShot_of_gated (gated_append absorb_gated finalAbsorb_gated) rfl
    (by simp [hashOneShot, hashSetup, hashUpdate, hashFinal]) (by simp [absorb]) s

theorem mac_oneShot (msg key : List Byte) (len : Byte) (s : State) : OneShot (macOneShot msg key len)
    (Instr.init :: absorb key ++ Instr.abss :: absorb msg ++ [Instr.abss, Instr.absb len, Instr.shufp])
    (key.length + msg.length + 5) len s :=
  have hmsg : ∀ i ∈ Instr.abss :: absorb msg, i.mnemonic.needsValid = true :=
    List.forall_mem_cons.2 ⟨rfl, absorb_gated⟩
  oneShot_of_gated (gated_append (gated_append absorb_gated hmsg) finalAbsorb_gated) rfl
    (by simp [macOneShot, macSetup, macUpdate, macFinal, hashFinal]) (by simp [absorb]; omega) s

/-! ### The rejection loop (R172) -/

/-- `(0 - bound) mod bound` in 32 bits is `2^32 mod bound`. -/
theorem uniformMin_toNat {bound : Word32} (h : 0 < bound.toNat) :
    (uniformMin bound).toNat = 2 ^ 32 % bound.toNat := by
  have hlt := bound.isLt
  have hneg : (0 - bound).toNat = 2 ^ 32 - bound.toNat := by bv_omega
  rw [uniformMin, BitVec.toNat_umod, hneg, ← Nat.mod_eq_sub_mod hlt.le]

theorem drawRandom32_of_live {s : State} (hlive : s.VALID = true) :
    ∃ t r, drawRandom32 s = some (t, .word r) := by
  obtain ⟨t, bs, hrun, hlen, -⟩ := drips_runThrough 4 hlive
  obtain ⟨b0, b1, b2, b3, rfl⟩ := List.length_eq_four.1 hlen
  exact ⟨t, _, drawRandom32_of_runsThrough hrun rfl⟩

/-- Without a context the first drip is refused and the draw is its response. -/
theorem drawRandom32_of_dead {s : State} (hdead : s.VALID = false) :
    drawRandom32 s = some (s.receive 0x0300, .refused 0x0300) := by
  have hdrip : Completes .drip s (s.raise .notInitialised) 0x0300 := ⟨exec_of_dead rfl hdead, rfl, rfl⟩
  have hall : issueAll random32 s = some (s.receive 0x0300, [0x0300]) :=
    issueAll_cons_of_refused (issue_completed hdrip) (by decide)
  rw [drawRandom32, hall]
  rfl

/-- A value the loop returns is a remainder by the bound. -/
theorem drawUniform_lt {bound : Word32} (hbound : 0 < bound.toNat) {fuel : Nat} {s t : State} {v : Word32}
    (h : drawUniform fuel bound s = some (t, .value v)) : v.toNat < bound.toNat := by
  induction fuel generalizing s with
  | zero => simp [drawUniform] at h
  | succ fuel ih =>
    cases hV : s.VALID with
    | false =>
      rw [drawUniform_of_refused (drawRandom32_of_dead hV)] at h
      simp at h
    | true =>
      obtain ⟨m, r, hdraw⟩ := drawRandom32_of_live hV
      rw [drawUniform_of_word hdraw] at h
      split at h
      next =>
        obtain rfl : r % bound = v := by simpa using congrArg (Option.map Prod.snd) h
        exact Nat.mod_lt _ hbound
      next => exact ih h

/-! ### The statements -/

/-- Settles O46: the host stops at the length check, before any `CRYPT`. -/
theorem cryptStopsOnLengthMismatch : Obligations.CryptStopsOnLengthMismatch := by
  intro input outlen s hin hout hne
  obtain ⟨t, ht, hctx⟩ := lengthCheck_stops (ofNat24_ne hin hout hne) (input.map .crypt) s
  exact ⟨t, (runCryptBuf_eq hin hout s).trans ht, rfl, hctx⟩

/-- Settles O47: both setups leave the same context, whose keystream combined twice gives the message back. -/
theorem cryptRoundTrip : Obligations.CryptRoundTrip := by
  intro key msg s s' hlen
  obtain ⟨u, hu, -⟩ := exists_initialContext
  have hlive := (shuffleIfPending_interface _).VALID.trans (absorbBytes_VALID key hu.VALID)
  obtain ⟨a, ha, hactx⟩ := setup_runsThrough hu key s
  obtain ⟨c, hc, hcctx⟩ := setup_runsThrough hu key s'
  obtain ⟨b, bs, hb, hbytes, -⟩ := runCryptBuf_live hlen (hactx.VALID.trans hlive)
  have hblen : (cryptBytes bs).length = msg.length := by rw [hbytes, combined_length]
  obtain ⟨d, ds, hd, hdbytes, -⟩ := runCryptBuf_live (input := cryptBytes bs) (hblen ▸ hlen)
    (hcctx.VALID.trans hlive)
  refine ⟨a, _, b, bs, c, _, d, ds, ha.1, hb, hc.1, hblen ▸ hd, ?_⟩
  rw [hdbytes, hbytes, combined_sameContext msg (hactx.symm.trans hcctx), combined_twice]

/-- Settles O48: the keystream of the concatenation is that of the first buffer and then that of the context the
first buffer leaves. -/
theorem cryptContinuesAcrossBuffers : Obligations.CryptContinuesAcrossBuffers := by
  intro x y s hlive hlen
  have hsum : x.length + y.length < 2 ^ 24 := List.length_append ▸ hlen
  obtain ⟨a, as, ha, habytes, hactx, halive⟩ := runCryptBuf_live (input := x) (by omega) hlive
  obtain ⟨b, bs, hb, hbbytes, hbctx, -⟩ := runCryptBuf_live (input := y) (by omega) halive
  obtain ⟨c, cs, hc, hcbytes, hcctx, -⟩ := runCryptBuf_live hlen hlive
  refine ⟨a, as, b, bs, c, cs, ha, hb, hc, ?_, ?_⟩
  · rw [hcbytes, habytes, hbbytes, combined_append, combined_sameContext y hactx]
  · rw [List.length_append, Nat.add_comm, Function.iterate_add_apply] at hcctx
    exact (hbctx.symm.trans (iterate_drip_sameContext _ hactx.symm)).trans hcctx

/-- Settles O50: both are an `INIT`, absorptions and a `SHUFP`, the drips and a `ZEROIZE`. -/
theorem oneShotsLeaveNothingBehind : Obligations.OneShotsLeaveNothingBehind := fun msg key len s =>
  ⟨hash_oneShot msg len s, mac_oneShot msg key len s⟩

/-- Settles O52: a draw on a live context is a word, which the loop accepts or draws again; a draw on a dead one
is the refused drip. -/
theorem uniformSamplesAreBelowTheBound : Obligations.UniformSamplesAreBelowTheBound := by
  refine fun fuel bound s => ⟨fun hlt => if_pos hlt, fun hge => ?_⟩
  have hmin : (uniformMin bound).toNat = 2 ^ 32 % bound.toNat := uniformMin_toNat (by omega)
  simp only [random32Uniform_eq hge]
  refine ⟨hmin, rfl, fun hlive => ?_, fun hdead => ?_, fun t v h => drawUniform_lt (by omega) h⟩
  · obtain ⟨t, r, hdraw⟩ := drawRandom32_of_live hlive
    refine ⟨t, r, hdraw, fun haccept => ⟨r % bound, ?_, BitVec.toNat_umod⟩, fun hreject => ?_⟩
    · have hge : r ≥ uniformMin bound := hmin.trans_le haccept
      rw [drawUniform_of_word hdraw, if_pos hge]
    · have hlt : r < uniformMin bound := hreject.trans_eq hmin.symm
      rw [drawUniform_of_word hdraw, if_neg (BitVec.not_le.2 hlt)]
  · have hdraw := drawRandom32_of_dead hdead
    exact ⟨hdraw, drawUniform_of_refused hdraw fuel bound⟩

/-- Settles O53: the length check decides the first outcome, the accumulator the second. -/
theorem compareTellsEqualBuffers : Obligations.CompareTellsEqualBuffers := by
  intro a b s ha hb
  rw [runCompare_eq ha hb]
  by_cases hlen : a.length = b.length
  · obtain ⟨m, hm, hmctx⟩ := lengthCheck_runsThrough (BitVec.ofNat 24 a.length) s
    obtain ⟨t, rs, ht, hctx, hlast⟩ := comparison_runsThrough a b hlen m
    rw [← hlen]
    refine ⟨t, _, (runsThrough_append hm ht).1, hmctx.trans hctx, absurd rfl, fun _ => ?_⟩
    rw [List.getLast?_append, hlast]
    rfl
  · obtain ⟨t, ht, hctx⟩ := lengthCheck_stops (ofNat24_ne ha hb hlen) _ s
    exact ⟨t, _, ht, hctx, fun _ => rfl, fun h => absurd h hlen⟩

end Sys2Proof.Machine
